-- ==== Sys2Proof/Word.lean ====
section
/-!
DEFINITION. The 8-bit value every register, memory cell, operand byte and immediate holds (R8), the register index (R20),
and masking to 8 bits (R9).
-/
namespace Sys2Proof

/-- An unsigned value from 0 to 255 (R8). -/
abbrev Byte := BitVec 8

/-- The index of one of the eight registers R0..R7 (R20). -/
abbrev RegIdx := Fin 8

/-- R9: `mask8(v) = v mod 256`, on an unbounded non-negative integer. It masks and never clamps (C2). -/
def mask8 (v : Nat) : Byte := BitVec.ofNat 8 v

/-- The operand byte that names register `r` (R83: the whole byte is the index). -/
def regByte (r : RegIdx) : Byte := mask8 r.val

theorem mask8_toNat (v : Nat) : (mask8 v).toNat = v % 256 := by simp [mask8]

theorem regByte_toNat (r : RegIdx) : (regByte r).toNat = r.val := by
  have h := r.isLt
  simp only [regByte, mask8_toNat]
  omega

end Sys2Proof
end

