-- ==== Sys2Proof/Config.lean ====
section
/-!
DEFINITION. The implementation parameters of R6 that are no bit of an encoding. The spec leaves no value free, so there is no
opaque constant here.
-/
namespace Sys2Proof

/-- R6: `MEM_SIZE`, the number N of memory cells of this hardware. A memory carries its own length (log 2), so that every rule
written in terms of N also has its meaning for a smaller N; this is the length it has at reset. -/
def Config.memSize : Nat := 256

/-- R6, R21, D12: the stack pointer is register 7. -/
def Config.spIndex : RegIdx := 7

/-- R6, R42: the stack pointer's reset value. -/
def Config.spReset : Byte := 0xF4

/-- R170: a return address is stored as one byte, so it is at most this. -/
def Config.maxReturnAddress : Nat := 255

end Sys2Proof
end

