-- ==== Sys2Proof/Syntax.lean ====
section
/-!
DEFINITION. The instructions, one constructor per row of spec/opcode_table.json (R1, R85). An operand is the whole operand byte
(R81, R83, R84); whether a register byte names a register is WellFormed's question, and R100's check in the meaning.
-/
namespace Sys2Proof

/-- R85: the opcode map's 17 rows, in its order, with the operands of their formats (R81). -/
inductive Instr where
  /-- R190, format F0. -/
  | hlt
  /-- R171, format F0. -/
  | ret
  /-- R151, format F1. -/
  | push (ra : Byte)
  /-- R152, format F1. -/
  | pop (ra : Byte)
  /-- R191, format F1. -/
  | prn (ra : Byte)
  /-- R170, format F1. -/
  | call (ra : Byte)
  /-- R172, format F1. -/
  | jmp (ra : Byte)
  /-- R173, format F1. -/
  | jeq (ra : Byte)
  /-- R174, format F1. -/
  | jne (ra : Byte)
  /-- R126, format F1: one register, width 2 (C1). -/
  | not (ra : Byte)
  /-- R150, format F2I. -/
  | ldi (ra imm : Byte)
  /-- R121, format F2R. -/
  | add (ra rb : Byte)
  /-- R122, format F2R. -/
  | mul (ra rb : Byte)
  /-- R127, format F2R. -/
  | cmp (ra rb : Byte)
  /-- R123, format F2R. -/
  | and (ra rb : Byte)
  /-- R124, format F2R. -/
  | or (ra rb : Byte)
  /-- R125, format F2R. -/
  | xor (ra rb : Byte)
  deriving DecidableEq, Repr

end Sys2Proof
end

