-- ==== Sys2Proof/WellFormed.lean ====
section
/-!
DEFINITION. When an instruction's register operands name registers (R23, R83, R100).
-/
namespace Sys2Proof

/-- R100: the register fields of the instruction's format, in the order they are checked (`ra`, then `rb` for F2R). LDI's
immediate is no register field. -/
def Instr.regFields : Instr → List Byte
  | .hlt => []
  | .ret => []
  | .push ra => [ra]
  | .pop ra => [ra]
  | .prn ra => [ra]
  | .call ra => [ra]
  | .jmp ra => [ra]
  | .jeq ra => [ra]
  | .jne ra => [ra]
  | .not ra => [ra]
  | .ldi ra _ => [ra]
  | .add ra rb => [ra, rb]
  | .mul ra rb => [ra, rb]
  | .cmp ra rb => [ra, rb]
  | .and ra rb => [ra, rb]
  | .or ra rb => [ra, rb]
  | .xor ra rb => [ra, rb]

/-- R23, R83: the byte names a register. -/
def namesRegister (b : Byte) : Bool := b.toNat < 8

/-- Every register field names a register. -/
def Instr.wellFormed (i : Instr) : Bool := i.regFields.all namesRegister

end Sys2Proof
end

