-- ==== Sys2Proof/Decode.lean ====
section
/-!
DEFINITION. The opcode map of R85, the decoder (R80, R81, R86, R87, R98, R99) and, after it, the encoder. Total on any bytes;
every rejection has a name.
-/
namespace Sys2Proof

/-- The mnemonics of R85's table, in its order. -/
inductive Op where
  | hlt | ret | push | pop | prn | call | jmp | jeq | jne | not | ldi | add | mul | cmp | and | or | xor
  deriving DecidableEq, Repr

/-- R81: the four formats. -/
inductive Format where
  /-- One byte: the opcode. -/
  | f0
  /-- Two bytes: opcode, `ra`. -/
  | f1
  /-- Three bytes: opcode, `ra`, `rb`. -/
  | f2r
  /-- Three bytes: opcode, `ra`, `imm8`. -/
  | f2i
  deriving DecidableEq, Repr

/-- R81: how many operand bytes follow the opcode. -/
def Format.operandCount : Format → Nat
  | .f0 => 0
  | .f1 => 1
  | .f2r => 2
  | .f2i => 2

/-- R81, R85: the format of each row. NOT has one register (C1). -/
def Op.format : Op → Format
  | .hlt => .f0
  | .ret => .f0
  | .push => .f1
  | .pop => .f1
  | .prn => .f1
  | .call => .f1
  | .jmp => .f1
  | .jeq => .f1
  | .jne => .f1
  | .not => .f1
  | .ldi => .f2i
  | .add => .f2r
  | .mul => .f2r
  | .cmp => .f2r
  | .and => .f2r
  | .or => .f2r
  | .xor => .f2r

/-- R80: an instruction's width is 1 plus the number of its operand bytes. -/
def Op.width (op : Op) : Nat := 1 + op.format.operandCount

/-- R85: the opcode map, as the table the decoder looks a byte up in. UNVERIFIED, unsafe (log 8): the byte values are the
spec's decision D1; the source gives none. -/
def opcodeTable : List (Byte × Op) :=
  [(0x01, .hlt), (0x11, .ret), (0x45, .push), (0x46, .pop), (0x47, .prn), (0x50, .call), (0x54, .jmp), (0x55, .jeq),
   (0x56, .jne), (0x69, .not), (0x82, .ldi), (0xA0, .add), (0xA2, .mul), (0xA7, .cmp), (0xA8, .and), (0xAA, .or),
   (0xAB, .xor)]

/-- R86: a flat lookup by the exact value of the whole opcode byte. -/
def lookupOpcode (b : Byte) : Option Op := (opcodeTable.find? (fun row => row.1 == b)).map (fun row => row.2)

/-- Why bytes are no instruction. -/
inductive DecodeError where
  /-- There is no opcode byte. -/
  | noOpcode
  /-- R87, R98: the opcode byte is not in the map. -/
  | illegalInstruction (opcode : Byte)
  /-- R99: an operand byte the instruction uses is missing. -/
  | missingOperand (opcode : Byte)
  deriving DecidableEq, Repr

/-- Format F1: the operand is the byte after the opcode. -/
def takeOne (f : Byte → Instr) : List Byte → Option Instr
  | [] => none
  | a :: _ => some (f a)

/-- Formats F2R and F2I: the operands are the two bytes after the opcode, in order. -/
def takeTwo (f : Byte → Byte → Instr) : List Byte → Option Instr
  | [] => none
  | [_] => none
  | a :: b :: _ => some (f a b)

/-- The instruction of a row from the bytes after its opcode (R81); none where one it uses is missing. -/
def assemble (op : Op) (operands : List Byte) : Option Instr :=
  match op with
  | .hlt => some .hlt
  | .ret => some .ret
  | .push => takeOne .push operands
  | .pop => takeOne .pop operands
  | .prn => takeOne .prn operands
  | .call => takeOne .call operands
  | .jmp => takeOne .jmp operands
  | .jeq => takeOne .jeq operands
  | .jne => takeOne .jne operands
  | .not => takeOne .not operands
  | .ldi => takeTwo .ldi operands
  | .add => takeTwo .add operands
  | .mul => takeTwo .mul operands
  | .cmp => takeTwo .cmp operands
  | .and => takeTwo .and operands
  | .or => takeTwo .or operands
  | .xor => takeTwo .xor operands

/-- R86, R98, R99: the instruction at the head of the bytes. The opcode alone chooses it, illegal opcodes are rejected before
missing operands, and bytes after the instruction play no part. -/
def decode : List Byte → Except DecodeError Instr
  | [] => .error .noOpcode
  | ir :: operands =>
    match lookupOpcode ir with
    | none => .error (.illegalInstruction ir)
    | some op =>
      match assemble op operands with
      | none => .error (.missingOperand ir)
      | some i => .ok i

/-! The encoder, from the same table of the spec, written a second time. -/

/-- R85: the row an instruction belongs to. -/
def Instr.op : Instr → Op
  | .hlt => .hlt
  | .ret => .ret
  | .push _ => .push
  | .pop _ => .pop
  | .prn _ => .prn
  | .call _ => .call
  | .jmp _ => .jmp
  | .jeq _ => .jeq
  | .jne _ => .jne
  | .not _ => .not
  | .ldi _ _ => .ldi
  | .add _ _ => .add
  | .mul _ _ => .mul
  | .cmp _ _ => .cmp
  | .and _ _ => .and
  | .or _ _ => .or
  | .xor _ _ => .xor

/-- R85: the opcode byte of a row, from the table's binary column. -/
def opcodeByte : Op → Byte
  | .hlt => 0b00000001
  | .ret => 0b00010001
  | .push => 0b01000101
  | .pop => 0b01000110
  | .prn => 0b01000111
  | .call => 0b01010000
  | .jmp => 0b01010100
  | .jeq => 0b01010101
  | .jne => 0b01010110
  | .not => 0b01101001
  | .ldi => 0b10000010
  | .add => 0b10100000
  | .mul => 0b10100010
  | .cmp => 0b10100111
  | .and => 0b10101000
  | .or => 0b10101010
  | .xor => 0b10101011

/-- R81: the operand bytes of an instruction, in the order they lie in memory. -/
def Instr.operands : Instr → List Byte
  | .hlt => []
  | .ret => []
  | .push ra => [ra]
  | .pop ra => [ra]
  | .prn ra => [ra]
  | .call ra => [ra]
  | .jmp ra => [ra]
  | .jeq ra => [ra]
  | .jne ra => [ra]
  | .not ra => [ra]
  | .ldi ra imm => [ra, imm]
  | .add ra rb => [ra, rb]
  | .mul ra rb => [ra, rb]
  | .cmp ra rb => [ra, rb]
  | .and ra rb => [ra, rb]
  | .or ra rb => [ra, rb]
  | .xor ra rb => [ra, rb]

/-- R80, R81: the bytes of an instruction, the opcode first. -/
def encode (i : Instr) : List Byte := opcodeByte i.op :: i.operands

/-! The host's numbering of an instruction's bits. -/

/-- The three bytes of the longest instruction whose low `nbits` bits are `w` and whose other bits are 0; byte k is bits
8k+7..8k. -/
def tableBytes (nbits w : Nat) : List Byte :=
  let v := w % 2 ^ nbits
  [mask8 v, mask8 (v / 256), mask8 (v / 65536)]

/-- What `decode` reads from an instruction whose bits are `w`, numbered as spec/opcode_table.json numbers them. -/
def decodeTableWord (nbits w : Nat) : Option Instr :=
  match decode (tableBytes nbits w) with
  | .error _ => none
  | .ok i => some i

end Sys2Proof
end

