-- ==== Sys2Proof/Machine/State.lean ====
section
/-!
DEFINITION. The whole state of the core (10_state.md), its reset values, and the reasons the interface can stop.
-/
namespace Sys2Proof.Machine

/-- R35: the run state. -/
inductive RunState where
  /-- Reset done, not yet started. -/
  | idle
  /-- The loop executes one step after another. -/
  | running
  /-- HLT executed; terminal. -/
  | halted
  /-- A fatal error was raised; terminal. -/
  | faulted
  deriving DecidableEq, Repr

/-- R200: the kinds of fault the core raises. -/
inductive FaultKind where
  | illegalInstruction
  | outOfRange
  | unsupportedOperation
  deriving DecidableEq, Repr

/-- R38: what a fault records. -/
structure FaultRecord where
  kind : FaultKind
  /-- The address of the faulting instruction. -/
  pc : Nat
  /-- The byte at that address, none where the fetch itself was out of range. -/
  opcode : Option Byte
  /-- The offending register index or memory address for OutOfRange, none for the other kinds. -/
  detail : Option Nat
  deriving DecidableEq, Repr

/-- R31: the three condition flags. -/
structure Flags where
  lt : Bool
  gt : Bool
  eq : Bool
  deriving DecidableEq, Repr

/-- R50: the array `mem[0..N-1]`. `size` is N (DESIGN CHOICE, safe, log 2). `cells` lists the cells that do not hold 0x00, the
value every cell has at reset (R45), at rising addresses. -/
structure Memory where
  size : Nat
  cells : List Host.Cell
  deriving DecidableEq, Repr

/-- The canonical form: addresses strictly rising, each one inside the array, and no cell listed that holds what an unlisted
cell reads as. -/
abbrev Memory.wf (m : Memory) : Prop :=
  m.cells.Pairwise (fun c d => c.1 < d.1) ∧ ∀ c ∈ m.cells, c.2 ≠ 0 ∧ c.1 < m.size

/-- The state of 10_state.md. -/
structure State where
  /-- R50: the one memory. -/
  mem : Memory
  /-- R20, R21: R0..R7; R7 is the stack pointer. -/
  x : Vector Byte 8
  /-- R26, R27: between steps the address of the next instruction, an integer that does not wrap. -/
  pc : Nat
  /-- R31: LT, GT, EQ. -/
  flags : Flags
  /-- R35. -/
  run : RunState
  /-- R38. -/
  fault : Option FaultRecord
  /-- R39: the values PRN emitted since reset, oldest first. -/
  out : List Byte
  deriving DecidableEq, Repr

/-- R240 with R41 to R46: the core constructed with a memory of `n` cells. -/
def State.resetWith (n : Nat) : State where
  mem := { size := n, cells := [] }
  x := #v[0, 0, 0, 0, 0, 0, 0, Config.spReset]
  pc := 0
  flags := { lt := false, gt := false, eq := false }
  run := .idle
  fault := none
  out := []

/-- R240: the machine right after reset, with the N = 256 cells of this hardware (R6). -/
def State.reset : State := State.resetWith Config.memSize

/-- Why `step` could stop with a fault of the interface. The spec gives every case of every step an effect: a fault of the core
is TAKEN (R206), which is a next state whose `fault` and `run` say so. -/
inductive Fault where
  /-- A behaviour the spec gives no effect for. Raised by nobody (log 3). Safe: it stops. -/
  | outsideSpec (what : String)
  deriving DecidableEq, Repr

/-- Why something is refused. -/
inductive Refusal where
  /-- An instruction without a meaning. Raised by no arm of `exec`. Safe: it stops. -/
  | notModelled (mnemonic : String)
  /-- R67, R68: `LoadOutOfRange`, an image that does not fit. Raised by the host's `load` alone. Safe: the spec's own refusal. -/
  | loadOutOfRange
  /-- R36, R68: `run` or `load` outside Idle. Raised by the host's `run` and `load` alone. Safe: the spec's own refusal. -/
  | notIdle (run : RunState)
  /-- R245: the state observed while Running. Raised by the host's `observe` alone. Safe: the spec's own refusal. -/
  | observeWhileRunning
  deriving DecidableEq, Repr

/-- What a meaning answers. -/
abbrev Result := Host.Outcome State Fault Refusal

end Sys2Proof.Machine
end

