-- ==== Sys2Proof/Machine/Ops.lean ====
section
/-!
DEFINITION. The named operations over memory, registers, the program counter, the flags, the output port and the stack, and
taking a fault.
-/
namespace Sys2Proof.Machine

/-! Memory (R50, R51, R52). -/

/-- The byte a list of cells holds at `a`. An unlisted cell reads 0x00, its reset value (R45). -/
def cellsGet : List Host.Cell → Nat → Byte
  | [], _ => 0
  | c :: rest, a => if c.1 = a then c.2 else cellsGet rest a

/-- A cell put in its place among cells at rising addresses. -/
def insertCell (a : Nat) (v : Byte) : List Host.Cell → List Host.Cell
  | [] => [(a, v)]
  | c :: rest => if a < c.1 then (a, v) :: c :: rest else c :: insertCell a v rest

/-- The cells with `v` at `a`. Writing 0x00 removes the cell from the list, so that equal memories are equal lists. -/
def cellsSet (cells : List Host.Cell) (a : Nat) (v : Byte) : List Host.Cell :=
  let others := cells.filter (fun c => c.1 != a)
  if v = 0 then others else insertCell a v others

/-- R51: `MemRead(addr, 1)`; none where it raises OutOfRange with `addr` as detail. No side effect (R58). -/
def Memory.read (m : Memory) (a : Nat) : Option Byte :=
  if a < m.size then some (cellsGet m.cells a) else none

/-- R52: `MemWrite(addr, 1, v)`; none where it raises OutOfRange with `addr` as detail. -/
def Memory.write (m : Memory) (a : Nat) (v : Byte) : Option Memory :=
  if a < m.size then some { m with cells := cellsSet m.cells a v } else none

/-- R67's loop: the bytes written one after another from `base`. It checks nothing; R67's check is `hostLoad`'s. -/
def Memory.storeBytes (m : Memory) (base : Nat) : List Byte → Memory
  | [] => m
  | b :: rest => Memory.storeBytes { m with cells := cellsSet m.cells base b } (base + 1) rest

/-! Registers (R20, R24), PC, flags, run state, output. -/

/-- R20: `get(index)`. -/
def State.reg (s : State) (r : RegIdx) : Byte := s.x[r]

/-- R20: `set(index, byte)`. The value is a byte, so it is masked already (R24). No register is hard-wired (R22). -/
def State.setReg (s : State) (r : RegIdx) (v : Byte) : State := { s with x := s.x.set r v }

/-- R21: the stack pointer is register 7. -/
def State.sp (s : State) : Byte := s.reg Config.spIndex

/-- R21, R24: the stack pointer written, as any register is. -/
def State.setSp (s : State) (v : Byte) : State := s.setReg Config.spIndex v

/-- R10: `pc <- t`. -/
def State.setPc (s : State) (t : Nat) : State := { s with pc := t }

/-- R27, R102: PC advanced by a width. It does not wrap. -/
def State.advance (s : State) (w : Nat) : State := s.setPc (s.pc + w)

/-- R32: all three flags written at once. -/
def State.setFlags (s : State) (f : Flags) : State := { s with flags := f }

/-- R10: `run <- r`. -/
def State.setRun (s : State) (r : RunState) : State := { s with run := r }

/-- The memory replaced. -/
def State.setMem (s : State) (m : Memory) : State := { s with mem := m }

/-- R191: `emit(v)` appends to the output stream. -/
def State.emit (s : State) (v : Byte) : State := { s with out := s.out ++ [v] }

/-! Faults (R200, R206). -/

/-- R200: the 8-bit code of a kind. -/
def FaultKind.code : FaultKind → Byte
  | .illegalInstruction => 0x01
  | .outOfRange => 0x02
  | .unsupportedOperation => 0x03

/-- R200: the code the fault record shows, 0x00 where there is none. -/
def State.faultCode (s : State) : Byte :=
  match s.fault with
  | none => 0x00
  | some r => r.kind.code

/-- R206: TAKING A FAULT in a step that began in `s`. Nothing of the step is committed: `s` is the state at the step's start,
and only the fault record and the run state change. There is no return from a fault (R209). -/
def takeFault (kind : FaultKind) (opcode : Option Byte) (detail : Option Nat) (s : State) : State :=
  { s with run := .faulted, fault := some { kind := kind, pc := s.pc, opcode := opcode, detail := detail } }

/-- R202: OutOfRange raised by an instruction whose opcode has been fetched. -/
def raiseOutOfRange (op : Op) (detail : Nat) (s : State) : Result :=
  .next (takeFault .outOfRange (some (opcodeByte op)) (some detail) s)

/-- R128, R203: UnsupportedOperation, raised by the ALU. -/
def raiseUnsupported (op : Op) (s : State) : Result :=
  .next (takeFault .unsupportedOperation (some (opcodeByte op)) none s)

/-! The stack (R153). -/

/-- R153: the address a push writes to, `mask8(SP - 1)`. -/
def pushAddr (s : State) : Byte := s.sp - 1

/-- R151's and R170's first statement: SP <- mask8(SP - 1). -/
def decSp (s : State) : State := s.setSp (pushAddr s)

/-- R152's and R171's increment: SP <- mask8(SP + 1), from the value SP has then. -/
def incSp (s : State) : State := s.setSp (s.sp + 1)

/-- `MemWrite(SP, 1, v)` with the SP of `s`; none where it raises. -/
def storeAtSp (s : State) (v : Byte) : Option State :=
  match s.mem.write s.sp.toNat v with
  | none => none
  | some m => some (s.setMem m)

/-- `MemRead(SP, 1)`; none where it raises. -/
def loadAtSp (s : State) : Option Byte := s.mem.read s.sp.toNat

end Sys2Proof.Machine
end

