-- ==== Sys2Proof/Machine/Operands.lean ====
section
/-!
DEFINITION. The operand forms: a register field checked and read as an index (R83, R100), one for format F1 and F2I, two for
format F2R. The immediate of F2I is the byte itself (R84).
-/
namespace Sys2Proof.Machine

/-- R23, R83: the register a whole operand byte names; none for 8 to 255. No bit of the byte is ignored. -/
def regIndex (b : Byte) : Option RegIdx :=
  if h : b.toNat < 8 then some ⟨b.toNat, h⟩ else none

/-- R100 for a format with the one register field `ra`: OutOfRange with the byte as detail, or the instruction's rule with the
index. -/
def withReg (op : Op) (ra : Byte) (s : State) (rule : RegIdx → Result) : Result :=
  match regIndex ra with
  | none => raiseOutOfRange op ra.toNat s
  | some a => rule a

/-- R100 for format F2R: `ra` is checked before `rb`. -/
def withRegs (op : Op) (ra rb : Byte) (s : State) (rule : RegIdx → RegIdx → Result) : Result :=
  withReg op ra s (fun a => withReg op rb s (fun b => rule a b))

end Sys2Proof.Machine
end

