-- ==== Sys2Proof/Machine/Flags.lean ====
section
/-!
DEFINITION. The condition-flag logic: the one flag computation of the core (R31, R32, R127).
-/
namespace Sys2Proof.Machine

/-- R127: the flags CMP leaves, from an unsigned comparison (R8). -/
def compareFlags (x y : Byte) : Flags :=
  if x.toNat = y.toNat then { lt := false, gt := false, eq := true }
  else if y.toNat < x.toNat then { lt := false, gt := true, eq := false }
  else { lt := true, gt := false, eq := false }

end Sys2Proof.Machine
end

