-- ==== Sys2Proof/Machine/Alu.lean ====
section
/-!
DEFINITION. The ALU (R120, R128, R129) and the meanings of ADD, MUL, AND, OR, XOR, NOT and CMP (R121 to R127).
-/
namespace Sys2Proof.Machine

/-- R121, R129: the low 8 bits of the exact sum. -/
def aluAdd (x y : Byte) : Byte := mask8 (x.toNat + y.toNat)

/-- R122, R129: the low 8 bits of the exact product. -/
def aluMul (x y : Byte) : Byte := mask8 (x.toNat * y.toNat)

/-- R126: the complement restricted to 8 bits, `0xFF - x`. -/
def aluNot (x : Byte) : Byte := mask8 (0xFF - x.toNat)

/-- R120: `apply(operation, reg_a, reg_b)`, with the PC advance of the operation; none for an operation outside the ALU's
seven. Both operands are read before the result is written. NOT does not use `b`. -/
def aluApply (op : Op) (a b : RegIdx) (s : State) : Option State :=
  match op with
  | .add => some ((s.setReg a (aluAdd (s.reg a) (s.reg b))).advance 3)
  | .mul => some ((s.setReg a (aluMul (s.reg a) (s.reg b))).advance 3)
  | .and => some ((s.setReg a (s.reg a &&& s.reg b)).advance 3)
  | .or => some ((s.setReg a (s.reg a ||| s.reg b)).advance 3)
  | .xor => some ((s.setReg a (s.reg a ^^^ s.reg b)).advance 3)
  | .not => some ((s.setReg a (aluNot (s.reg a))).advance 2)
  | .cmp => some ((s.setFlags (compareFlags (s.reg a) (s.reg b))).advance 3)
  | .hlt => none
  | .ret => none
  | .push => none
  | .pop => none
  | .prn => none
  | .call => none
  | .jmp => none
  | .jeq => none
  | .jne => none
  | .ldi => none

/-- R120, R128: an operation dispatched to the ALU; outside its set it raises UnsupportedOperation. -/
def aluDispatch (op : Op) (a b : RegIdx) (s : State) : Result :=
  match aluApply op a b s with
  | none => raiseUnsupported op s
  | some t => .next t

/-- An ALU instruction of format F2R. -/
def aluTwo (op : Op) (ra rb : Byte) (s : State) : Result :=
  withRegs op ra rb s (fun a b => aluDispatch op a b s)

/-- R121. -/
def execAdd (ra rb : Byte) (s : State) : Result := aluTwo .add ra rb s

/-- R122. -/
def execMul (ra rb : Byte) (s : State) : Result := aluTwo .mul ra rb s

/-- R123. -/
def execAnd (ra rb : Byte) (s : State) : Result := aluTwo .and ra rb s

/-- R124. -/
def execOr (ra rb : Byte) (s : State) : Result := aluTwo .or ra rb s

/-- R125. -/
def execXor (ra rb : Byte) (s : State) : Result := aluTwo .xor ra rb s

/-- R127. -/
def execCmp (ra rb : Byte) (s : State) : Result := aluTwo .cmp ra rb s

/-- R126: format F1. The byte after `ra` is not part of the instruction (C1). -/
def execNot (ra : Byte) (s : State) : Result :=
  withReg .not ra s (fun a => aluDispatch .not a a s)

end Sys2Proof.Machine
end

