-- ==== Sys2Proof/Machine/Control.lean ====
section
/-!
DEFINITION. The meanings of CALL, RET, JMP, JEQ and JNE (R170 to R174). Every target is an 8-bit value (R175); one of N or more is
accepted by the jump and faults at the next fetch.
-/
namespace Sys2Proof.Machine

/-- R172 and the taken jumps of R173, R174: PC <- x[a]. -/
def jumpTo (a : RegIdx) (s : State) : State := s.setPc (s.reg a).toNat

/-- R170: the return address must fit in a byte (D18); then the push; then the target is read, so CALL R7 jumps to the
decremented SP. -/
def execCall (ra : Byte) (s : State) : Result :=
  withReg .call ra s (fun a =>
    if Config.maxReturnAddress < s.pc + 2 then raiseOutOfRange .call (s.pc + 2) s
    else
      let t := decSp s
      match storeAtSp t (mask8 (s.pc + 2)) with
      | none => raiseOutOfRange .call t.sp.toNat s
      | some u => .next (jumpTo a u))

/-- R171: PC <- the byte at SP, then SP is incremented. -/
def execRet (s : State) : Result :=
  match loadAtSp s with
  | none => raiseOutOfRange .ret s.sp.toNat s
  | some v => .next (incSp (s.setPc v.toNat))

/-- R172. -/
def execJmp (ra : Byte) (s : State) : Result :=
  withReg .jmp ra s (fun a => .next (jumpTo a s))

/-- R173: taken when EQ is set. `ra` is checked whether or not the jump is taken (R100). -/
def execJeq (ra : Byte) (s : State) : Result :=
  withReg .jeq ra s (fun a => .next (if s.flags.eq then jumpTo a s else s.advance 2))

/-- R174: taken when EQ is clear. -/
def execJne (ra : Byte) (s : State) : Result :=
  withReg .jne ra s (fun a => .next (if s.flags.eq then s.advance 2 else jumpTo a s))

end Sys2Proof.Machine
end

