-- ==== Sys2Proof/Machine/System.lean ====
section
/-!
DEFINITION. The meanings of HLT and PRN (R190, R191).
-/
namespace Sys2Proof.Machine

/-- R190: the run ends; PC stays at the HLT's own address (C5). -/
def execHlt (s : State) : Result := .next (s.setRun .halted)

/-- R191: one output event with the register's value. -/
def execPrn (ra : Byte) (s : State) : Result :=
  withReg .prn ra s (fun a => .next ((s.emit (s.reg a)).advance 2))

end Sys2Proof.Machine
end

