-- ==== Sys2Proof/Machine/Transfer.lean ====
section
/-!
DEFINITION. The meanings of LDI, PUSH and POP (R150, R151, R152). The statements of a rule run in the order it writes them, each
on the state the ones before it left (R11, D20); a rule that raises commits nothing (R101).
-/
namespace Sys2Proof.Machine

/-- R150: the immediate is written as it stands (R84). -/
def execLdi (ra imm : Byte) (s : State) : Result :=
  withReg .ldi ra s (fun a => .next ((s.setReg a imm).advance 3))

/-- R151: SP is decremented, then `x[a]` is read and stored at SP, so PUSH R7 stores the decremented SP. -/
def execPush (ra : Byte) (s : State) : Result :=
  withReg .push ra s (fun a =>
    let t := decSp s
    match storeAtSp t (t.reg a) with
    | none => raiseOutOfRange .push t.sp.toNat s
    | some u => .next (u.advance 2))

/-- R152: the byte at SP is written to `x[a]`, then SP is incremented from the value it has then, so POP R7 leaves the popped
byte plus 1. The byte stays in memory. -/
def execPop (ra : Byte) (s : State) : Result :=
  withReg .pop ra s (fun a =>
    match loadAtSp s with
    | none => raiseOutOfRange .pop s.sp.toNat s
    | some v => .next ((incSp (s.setReg a v)).advance 2))

end Sys2Proof.Machine
end

