-- ==== Sys2Proof/Machine/Fetch.lean ====
section
/-!
DEFINITION. Fetching and decoding (R95 to R99), the trace port (R216), and placing an instruction where the next fetch reads it.
-/
namespace Sys2Proof.Machine

/-- R40: what a step latches. It lives within the step and is no part of State (log 5). -/
structure Fetched where
  /-- The opcode byte at `pc`. -/
  ir : Byte
  /-- The byte at `pc + 1`; none where there is no such cell (R97). -/
  opA : Option Byte
  /-- The byte at `pc + 2`; none where there is no such cell (R97). -/
  opB : Option Byte
  deriving DecidableEq, Repr

/-- R96, R97: the opcode fetch and the speculative operand fetch; none where the opcode fetch is out of range. A missing
operand byte is no fault here. -/
def fetch (s : State) : Option Fetched :=
  match s.mem.read s.pc with
  | none => none
  | some ir => some { ir := ir, opA := s.mem.read (s.pc + 1), opB := s.mem.read (s.pc + 2) }

/-- The latched bytes in the order they lie in memory, up to the first that is missing. -/
def Fetched.bytes (f : Fetched) : List Byte :=
  f.ir :: (match f.opA with
    | none => []
    | some a => match f.opB with
      | none => [a]
      | some b => [a, b])

/-- R96: OutOfRange with no opcode and the PC as detail. -/
def raiseFetch (s : State) : Result := .next (takeFault .outOfRange none (some s.pc) s)

/-- What a step whose opcode byte `ir` was fetched raises where the latched bytes are no instruction: R98 for an illegal opcode,
R99 with detail N for a missing operand byte. `noOpcode` cannot come from latched bytes. -/
def raiseDecode (ir : Byte) (e : DecodeError) (s : State) : Result :=
  match e with
  | .noOpcode => raiseFetch s
  | .illegalInstruction _ => .next (takeFault .illegalInstruction (some ir) none s)
  | .missingOperand _ => .next (takeFault .outOfRange (some ir) (some s.mem.size) s)

/-- R95: in Idle, Halted and Faulted no step is performed, and every piece of state keeps its value (R218). DESIGN CHOICE
(log 1): the answer is the state unchanged. -/
def noStep (s : State) : Result := .next s

/-- R216: what a trace event carries: the PC, the three bytes from it (none where absent) and the registers. -/
structure TraceEvent where
  pc : Nat
  bytes : Fetched
  x : Vector Byte 8
  deriving DecidableEq, Repr

/-- R216: the trace event of the step that begins in `s`: none where no step is performed or the opcode fetch is out of range. It
is a function of the state, so it has no effect on execution (log 6). -/
def traceEvent (s : State) : Option TraceEvent :=
  match s.run with
  | .idle => none
  | .halted => none
  | .faulted => none
  | .running =>
    match fetch s with
    | none => none
    | some f => some { pc := s.pc, bytes := f, x := s.x }

/-- One byte written where there is such a cell; elsewhere nothing. -/
def Memory.poke (m : Memory) (a : Nat) (v : Byte) : Memory :=
  match m.write a v with
  | none => m
  | some m' => m'

/-- The bytes written one after another from `base`, those beyond the last cell dropped. -/
def Memory.pokeBytes (m : Memory) (base : Nat) : List Byte → Memory
  | [] => m
  | b :: rest => Memory.pokeBytes (m.poke base b) (base + 1) rest

/-- The bytes at the PC and the core Running: what `load` at the PC and `run` do (R67, R36), so that the next step fetches them. -/
def placeAtPc (s : State) (bytes : List Byte) : State :=
  (s.setMem (s.mem.pokeBytes s.pc bytes)).setRun .running

end Sys2Proof.Machine
end

