-- ==== Sys2Proof/Machine/Step.lean ====
section
/-!
DEFINITION. One step of the core (R95, R103, R104).
-/
namespace Sys2Proof.Machine

/-- R104: fetch, decode, check, execute. The checks of the register fields (R100) are made by the meanings. -/
def step (s : State) : Host.Outcome State Fault Refusal :=
  match s.run with
  | .idle => noStep s
  | .halted => noStep s
  | .faulted => noStep s
  | .running =>
    match fetch s with
    | none => raiseFetch s
    | some f =>
      match decode f.bytes with
      | .error e => raiseDecode f.ir e s
      | .ok i => exec i s

/-- `s` with the instruction whose bits are `w` where `step` fetches its next instruction, and the core Running (log 4). -/
def State.withFetchWord (s : State) (nbits w : Nat) : State := placeAtPc s (tableBytes nbits w)

end Sys2Proof.Machine
end

