-- ==== Sys2Proof/Laws/State.lean ====
section
/-!
SUPPORT. What each update of a state leaves in each field, one lemma each, and what a register reads after it.
-/
namespace Sys2Proof.Machine

/-! After a register write. -/

@[simp] theorem State.setReg_mem (s : State) (r : RegIdx) (v : Byte) : (s.setReg r v).mem = s.mem := rfl
@[simp] theorem State.setReg_x (s : State) (r : RegIdx) (v : Byte) : (s.setReg r v).x = s.x.set r v := rfl
@[simp] theorem State.setReg_pc (s : State) (r : RegIdx) (v : Byte) : (s.setReg r v).pc = s.pc := rfl
@[simp] theorem State.setReg_flags (s : State) (r : RegIdx) (v : Byte) : (s.setReg r v).flags = s.flags := rfl
@[simp] theorem State.setReg_run (s : State) (r : RegIdx) (v : Byte) : (s.setReg r v).run = s.run := rfl
@[simp] theorem State.setReg_fault (s : State) (r : RegIdx) (v : Byte) : (s.setReg r v).fault = s.fault := rfl
@[simp] theorem State.setReg_out (s : State) (r : RegIdx) (v : Byte) : (s.setReg r v).out = s.out := rfl

/-! After a PC write. -/

@[simp] theorem State.setPc_mem (s : State) (t : Nat) : (s.setPc t).mem = s.mem := rfl
@[simp] theorem State.setPc_x (s : State) (t : Nat) : (s.setPc t).x = s.x := rfl
@[simp] theorem State.setPc_pc (s : State) (t : Nat) : (s.setPc t).pc = t := rfl
@[simp] theorem State.setPc_flags (s : State) (t : Nat) : (s.setPc t).flags = s.flags := rfl
@[simp] theorem State.setPc_run (s : State) (t : Nat) : (s.setPc t).run = s.run := rfl
@[simp] theorem State.setPc_fault (s : State) (t : Nat) : (s.setPc t).fault = s.fault := rfl
@[simp] theorem State.setPc_out (s : State) (t : Nat) : (s.setPc t).out = s.out := rfl
@[simp] theorem State.setPc_reg (s : State) (t : Nat) (q : RegIdx) : (s.setPc t).reg q = s.reg q := rfl
@[simp] theorem State.setPc_sp (s : State) (t : Nat) : (s.setPc t).sp = s.sp := rfl

/-! After a PC advance. -/

@[simp] theorem State.advance_mem (s : State) (w : Nat) : (s.advance w).mem = s.mem := rfl
@[simp] theorem State.advance_x (s : State) (w : Nat) : (s.advance w).x = s.x := rfl
@[simp] theorem State.advance_pc (s : State) (w : Nat) : (s.advance w).pc = s.pc + w := rfl
@[simp] theorem State.advance_flags (s : State) (w : Nat) : (s.advance w).flags = s.flags := rfl
@[simp] theorem State.advance_run (s : State) (w : Nat) : (s.advance w).run = s.run := rfl
@[simp] theorem State.advance_fault (s : State) (w : Nat) : (s.advance w).fault = s.fault := rfl
@[simp] theorem State.advance_out (s : State) (w : Nat) : (s.advance w).out = s.out := rfl
@[simp] theorem State.advance_reg (s : State) (w : Nat) (q : RegIdx) : (s.advance w).reg q = s.reg q := rfl
@[simp] theorem State.advance_sp (s : State) (w : Nat) : (s.advance w).sp = s.sp := rfl

/-! After a flags write. -/

@[simp] theorem State.setFlags_mem (s : State) (f : Flags) : (s.setFlags f).mem = s.mem := rfl
@[simp] theorem State.setFlags_x (s : State) (f : Flags) : (s.setFlags f).x = s.x := rfl
@[simp] theorem State.setFlags_pc (s : State) (f : Flags) : (s.setFlags f).pc = s.pc := rfl
@[simp] theorem State.setFlags_flags (s : State) (f : Flags) : (s.setFlags f).flags = f := rfl
@[simp] theorem State.setFlags_run (s : State) (f : Flags) : (s.setFlags f).run = s.run := rfl
@[simp] theorem State.setFlags_fault (s : State) (f : Flags) : (s.setFlags f).fault = s.fault := rfl
@[simp] theorem State.setFlags_out (s : State) (f : Flags) : (s.setFlags f).out = s.out := rfl
@[simp] theorem State.setFlags_reg (s : State) (f : Flags) (q : RegIdx) : (s.setFlags f).reg q = s.reg q := rfl
@[simp] theorem State.setFlags_sp (s : State) (f : Flags) : (s.setFlags f).sp = s.sp := rfl

/-! After a change of the run state. -/

@[simp] theorem State.setRun_mem (s : State) (r : RunState) : (s.setRun r).mem = s.mem := rfl
@[simp] theorem State.setRun_x (s : State) (r : RunState) : (s.setRun r).x = s.x := rfl
@[simp] theorem State.setRun_pc (s : State) (r : RunState) : (s.setRun r).pc = s.pc := rfl
@[simp] theorem State.setRun_flags (s : State) (r : RunState) : (s.setRun r).flags = s.flags := rfl
@[simp] theorem State.setRun_run (s : State) (r : RunState) : (s.setRun r).run = r := rfl
@[simp] theorem State.setRun_fault (s : State) (r : RunState) : (s.setRun r).fault = s.fault := rfl
@[simp] theorem State.setRun_out (s : State) (r : RunState) : (s.setRun r).out = s.out := rfl
@[simp] theorem State.setRun_reg (s : State) (r : RunState) (q : RegIdx) : (s.setRun r).reg q = s.reg q := rfl
@[simp] theorem State.setRun_sp (s : State) (r : RunState) : (s.setRun r).sp = s.sp := rfl

/-! After a change of memory. -/

@[simp] theorem State.setMem_mem (s : State) (m : Memory) : (s.setMem m).mem = m := rfl
@[simp] theorem State.setMem_x (s : State) (m : Memory) : (s.setMem m).x = s.x := rfl
@[simp] theorem State.setMem_pc (s : State) (m : Memory) : (s.setMem m).pc = s.pc := rfl
@[simp] theorem State.setMem_flags (s : State) (m : Memory) : (s.setMem m).flags = s.flags := rfl
@[simp] theorem State.setMem_run (s : State) (m : Memory) : (s.setMem m).run = s.run := rfl
@[simp] theorem State.setMem_fault (s : State) (m : Memory) : (s.setMem m).fault = s.fault := rfl
@[simp] theorem State.setMem_out (s : State) (m : Memory) : (s.setMem m).out = s.out := rfl
@[simp] theorem State.setMem_reg (s : State) (m : Memory) (q : RegIdx) : (s.setMem m).reg q = s.reg q := rfl
@[simp] theorem State.setMem_sp (s : State) (m : Memory) : (s.setMem m).sp = s.sp := rfl

/-! After an output event. -/

@[simp] theorem State.emit_mem (s : State) (v : Byte) : (s.emit v).mem = s.mem := rfl
@[simp] theorem State.emit_x (s : State) (v : Byte) : (s.emit v).x = s.x := rfl
@[simp] theorem State.emit_pc (s : State) (v : Byte) : (s.emit v).pc = s.pc := rfl
@[simp] theorem State.emit_flags (s : State) (v : Byte) : (s.emit v).flags = s.flags := rfl
@[simp] theorem State.emit_run (s : State) (v : Byte) : (s.emit v).run = s.run := rfl
@[simp] theorem State.emit_fault (s : State) (v : Byte) : (s.emit v).fault = s.fault := rfl
@[simp] theorem State.emit_out (s : State) (v : Byte) : (s.emit v).out = s.out ++ [v] := rfl
@[simp] theorem State.emit_reg (s : State) (v : Byte) (q : RegIdx) : (s.emit v).reg q = s.reg q := rfl
@[simp] theorem State.emit_sp (s : State) (v : Byte) : (s.emit v).sp = s.sp := rfl

/-! After a fault is taken (R206). -/

@[simp] theorem takeFault_mem (k : FaultKind) (o : Option Byte) (d : Option Nat) (s : State) :
    (takeFault k o d s).mem = s.mem := rfl
@[simp] theorem takeFault_x (k : FaultKind) (o : Option Byte) (d : Option Nat) (s : State) :
    (takeFault k o d s).x = s.x := rfl
@[simp] theorem takeFault_pc (k : FaultKind) (o : Option Byte) (d : Option Nat) (s : State) :
    (takeFault k o d s).pc = s.pc := rfl
@[simp] theorem takeFault_flags (k : FaultKind) (o : Option Byte) (d : Option Nat) (s : State) :
    (takeFault k o d s).flags = s.flags := rfl
@[simp] theorem takeFault_run (k : FaultKind) (o : Option Byte) (d : Option Nat) (s : State) :
    (takeFault k o d s).run = .faulted := rfl
@[simp] theorem takeFault_fault (k : FaultKind) (o : Option Byte) (d : Option Nat) (s : State) :
    (takeFault k o d s).fault = some { kind := k, pc := s.pc, opcode := o, detail := d } := rfl
@[simp] theorem takeFault_out (k : FaultKind) (o : Option Byte) (d : Option Nat) (s : State) :
    (takeFault k o d s).out = s.out := rfl

/-! Registers. -/

/-- A register reads what was written last to it, and a write changes no other (R20). -/
theorem State.reg_setReg (s : State) (r q : RegIdx) (v : Byte) :
    (s.setReg r v).reg q = if q = r then v else s.reg q := by
  simp [State.setReg, State.reg, Vector.getElem_set, Fin.ext_iff, eq_comm]

@[simp] theorem State.reg_setReg_self (s : State) (r : RegIdx) (v : Byte) : (s.setReg r v).reg r = v := by
  simp [State.reg_setReg]

theorem State.reg_setReg_ne (s : State) (r q : RegIdx) (v : Byte) (h : q ≠ r) :
    (s.setReg r v).reg q = s.reg q := by
  simp [State.reg_setReg, h]

/-- The stack pointer is register 7 (R21). -/
theorem State.sp_eq (s : State) : s.sp = s.reg 7 := rfl

theorem State.setSp_eq (s : State) (v : Byte) : s.setSp v = s.setReg 7 v := rfl

theorem decSp_eq (s : State) : decSp s = s.setReg 7 (s.sp - 1) := rfl

theorem incSp_eq (s : State) : incSp s = s.setReg 7 (s.sp + 1) := rfl

@[simp] theorem State.sp_setReg_seven (s : State) (v : Byte) : (s.setReg 7 v).sp = v := by
  simp [State.sp_eq]

theorem State.sp_setReg_ne (s : State) (r : RegIdx) (v : Byte) (h : r ≠ 7) : (s.setReg r v).sp = s.sp := by
  simp [State.sp_eq, State.reg_setReg, Ne.symm h]

end Sys2Proof.Machine
end

