-- ==== Sys2Proof/Laws/Memory.lean ====
section
/-!
SUPPORT. The laws of memory: a read after a write, and every memory operation keeps the canonical form.
-/
namespace Sys2Proof.Machine

/-! Lists of cells. -/

theorem cellsGet_insertCell (cells : List Host.Cell) (a b : Nat) (v : Byte) (h : ∀ c ∈ cells, c.1 ≠ a) :
    cellsGet (insertCell a v cells) b = if b = a then v else cellsGet cells b := by
  induction cells with
  | nil => simp [insertCell, cellsGet, eq_comm]
  | cons c rest ih =>
    have hc : c.1 ≠ a := h c (by simp)
    have hrest := ih (fun d hd => h d (by simp [hd]))
    unfold insertCell
    split
    · by_cases hba : b = a
      · simp [cellsGet, hba]
      · simp [cellsGet, hba, Ne.symm hba]
    · by_cases hcb : c.1 = b
      · have hba : b ≠ a := fun e => hc (hcb.trans e)
        simp [cellsGet, hcb, hba]
      · simp [cellsGet, hcb, hrest]

theorem cellsGet_filter (cells : List Host.Cell) (a b : Nat) :
    cellsGet (cells.filter (fun c => c.1 != a)) b = if b = a then 0 else cellsGet cells b := by
  induction cells with
  | nil => simp [cellsGet]
  | cons c rest ih =>
    by_cases hca : c.1 = a
    · rw [List.filter_cons_of_neg (by simp [hca]), ih]
      by_cases hba : b = a
      · simp [hba]
      · simp [hba, cellsGet, hca, Ne.symm hba]
    · by_cases hcb : c.1 = b
      · have hba : b ≠ a := fun e => hca (hcb.trans e)
        simp [hba, cellsGet, hcb]
      · simp [hca, cellsGet, hcb, ih]

/-- A cell reads what was written last to it, and a write changes no other; this holds of every list of cells. -/
theorem cellsGet_cellsSet (cells : List Host.Cell) (a b : Nat) (v : Byte) :
    cellsGet (cellsSet cells a v) b = if b = a then v else cellsGet cells b := by
  unfold cellsSet
  split
  · next hv => subst hv; exact cellsGet_filter cells a b
  · rw [cellsGet_insertCell _ _ _ _ (by simp), cellsGet_filter]
    by_cases hba : b = a <;> simp [hba]

theorem mem_insertCell (cells : List Host.Cell) (a : Nat) (v : Byte) (c : Host.Cell) :
    c ∈ insertCell a v cells ↔ c = (a, v) ∨ c ∈ cells := by
  induction cells with
  | nil => simp [insertCell]
  | cons d rest ih =>
    unfold insertCell
    split
    · simp
    · simp only [List.mem_cons, ih]
      tauto

theorem pairwise_insertCell (cells : List Host.Cell) (a : Nat) (v : Byte)
    (hs : cells.Pairwise (fun c d => c.1 < d.1)) (hne : ∀ c ∈ cells, c.1 ≠ a) :
    (insertCell a v cells).Pairwise (fun c d => c.1 < d.1) := by
  induction cells with
  | nil => simp [insertCell]
  | cons c rest ih =>
    rw [List.pairwise_cons] at hs
    have hrest := ih hs.2 (fun d hd => hne d (by simp [hd]))
    have hca : c.1 ≠ a := hne c (by simp)
    unfold insertCell
    split
    · next hlt =>
      refine List.pairwise_cons.mpr ⟨?_, List.pairwise_cons.mpr hs⟩
      intro d hd
      rcases List.mem_cons.mp hd with rfl | hd
      · exact hlt
      · exact lt_trans hlt (hs.1 d hd)
    · next hge =>
      refine List.pairwise_cons.mpr ⟨?_, hrest⟩
      intro d hd
      rcases (mem_insertCell rest a v d).mp hd with rfl | hd
      · exact lt_of_le_of_ne (Nat.le_of_not_lt hge) hca
      · exact hs.1 d hd

/-- Writing a cell inside the array keeps the canonical form. -/
theorem Memory.wf_cellsSet (m : Memory) (a : Nat) (v : Byte) (h : m.wf) (ha : a < m.size) :
    Memory.wf { m with cells := cellsSet m.cells a v } := by
  obtain ⟨hs, hc⟩ := h
  have hfs : (m.cells.filter (fun c => c.1 != a)).Pairwise (fun c d => c.1 < d.1) :=
    hs.sublist List.filter_sublist
  have hfc : ∀ c ∈ m.cells.filter (fun c => c.1 != a), c.2 ≠ 0 ∧ c.1 < m.size :=
    fun c hm => hc c (List.mem_filter.mp hm).1
  have hfa : ∀ c ∈ m.cells.filter (fun c => c.1 != a), c.1 ≠ a := by simp
  by_cases hv : v = 0
  · simp only [Memory.wf, cellsSet, hv, if_true]
    exact ⟨hfs, hfc⟩
  · simp only [Memory.wf, cellsSet, hv, if_false]
    refine ⟨pairwise_insertCell _ _ _ hfs hfa, fun c hm => ?_⟩
    rcases (mem_insertCell _ _ _ _).mp hm with rfl | hm
    · exact ⟨hv, ha⟩
    · exact hfc c hm

/-! Reads and writes. -/

/-- What a read can answer (R51). -/
theorem Memory.read_eq_some (m : Memory) (a : Nat) (v : Byte) :
    m.read a = some v ↔ a < m.size ∧ cellsGet m.cells a = v := by
  unfold Memory.read
  split <;> simp_all

theorem Memory.read_eq_none (m : Memory) (a : Nat) : m.read a = none ↔ m.size ≤ a := by
  unfold Memory.read
  split <;> simp_all

/-- What a write can answer (R52). -/
theorem Memory.write_eq_some (m m' : Memory) (a : Nat) (v : Byte) :
    m.write a v = some m' ↔ a < m.size ∧ m' = { m with cells := cellsSet m.cells a v } := by
  unfold Memory.write
  split <;> simp_all [eq_comm]

theorem Memory.write_eq_none (m : Memory) (a : Nat) (v : Byte) : m.write a v = none ↔ m.size ≤ a := by
  unfold Memory.write
  split <;> simp_all

/-- A write changes no number of cells. -/
theorem Memory.write_size {m m' : Memory} {a : Nat} {v : Byte} (h : m.write a v = some m') :
    m'.size = m.size := by
  obtain ⟨-, rfl⟩ := (Memory.write_eq_some m m' a v).mp h
  rfl

/-- Every byte after a write. -/
theorem Memory.read_write {m m' : Memory} {a : Nat} {v : Byte} (h : m.write a v = some m') (b : Nat) :
    m'.read b = if b = a then some v else m.read b := by
  obtain ⟨ha, rfl⟩ := (Memory.write_eq_some m m' a v).mp h
  by_cases hba : b = a
  · simp [Memory.read, cellsGet_cellsSet, hba, ha]
  · simp [Memory.read, cellsGet_cellsSet, hba]

/-- A write keeps the canonical form. -/
theorem Memory.wf_write {m m' : Memory} {a : Nat} {v : Byte} (h : m.write a v = some m') (hw : m.wf) : m'.wf := by
  obtain ⟨ha, rfl⟩ := (Memory.write_eq_some m m' a v).mp h
  exact Memory.wf_cellsSet m a v hw ha

/-- The load port's loop changes no number of cells. -/
theorem Memory.size_storeBytes (m : Memory) (base : Nat) (bytes : List Byte) : (m.storeBytes base bytes).size = m.size := by
  induction bytes generalizing m base with
  | nil => rfl
  | cons b rest ih => exact ih _ _

/-- Every cell after the load port's loop. -/
theorem cellsGet_storeBytes (m : Memory) (base : Nat) (bytes : List Byte) (a : Nat) :
    cellsGet (m.storeBytes base bytes).cells a =
      if base ≤ a ∧ a < base + bytes.length then (bytes[a - base]?).getD 0 else cellsGet m.cells a := by
  induction bytes generalizing m base with
  | nil => simp [Memory.storeBytes]
  | cons b rest ih =>
    rw [Memory.storeBytes, ih]
    simp only [List.length_cons, cellsGet_cellsSet]
    by_cases hb : a = base
    · subst hb; simp
    · by_cases hin : base + 1 ≤ a ∧ a < base + 1 + rest.length
      · have hk : a - base = (a - (base + 1)) + 1 := by omega
        rw [if_pos hin, if_pos (by omega), hk]
        simp
      · rw [if_neg hin, if_neg hb, if_neg (by omega)]

/-- The load port's loop keeps the canonical form where the image fits. -/
theorem Memory.wf_storeBytes (m : Memory) (base : Nat) (bytes : List Byte) (hw : m.wf)
    (hfit : base + bytes.length ≤ m.size) : (m.storeBytes base bytes).wf := by
  induction bytes generalizing m base with
  | nil => exact hw
  | cons b rest ih =>
    simp only [List.length_cons] at hfit
    refine ih _ (base + 1) (Memory.wf_cellsSet m base b hw (by omega)) ?_
    show base + 1 + rest.length ≤ m.size
    omega

theorem Memory.wf_poke (m : Memory) (a : Nat) (v : Byte) (hw : m.wf) : (m.poke a v).wf := by
  unfold Memory.poke
  split
  · exact hw
  · next h => exact Memory.wf_write h hw

/-- Placing an instruction keeps the canonical form. -/
theorem Memory.wf_pokeBytes (m : Memory) (base : Nat) (bytes : List Byte) (hw : m.wf) :
    (m.pokeBytes base bytes).wf := by
  induction bytes generalizing m base with
  | nil => exact hw
  | cons b rest ih => exact ih _ _ (Memory.wf_poke m base b hw)

/-- The memory right after reset has the canonical form. -/
theorem Memory.wf_reset : State.reset.mem.wf := by decide

end Sys2Proof.Machine
end

