-- ==== Sys2Proof/Machine/HostPort.lean ====
section
/-!
DEFINITION. The host's transactions (R36, R67, R68, R240, R245). They happen between steps and never while the core performs one
(R37), so they are functions beside `step` (log 4). What the host may not do is refused.
-/
namespace Sys2Proof.Machine

/-- R240: reset constructs the core anew. Admitted in every run state. That it keeps the number of cells is read from R240 and R50
(DEDUCED, safe, log 10). -/
def hostReset (s : State) : Result := .next (State.resetWith s.mem.size)

/-- R67, R68: `load(bytes, base)`: only in Idle, and whole or not at all. -/
def hostLoad (bytes : List Byte) (base : Nat) (s : State) : Result :=
  match s.run with
  | .running => .refused (.notIdle .running)
  | .halted => .refused (.notIdle .halted)
  | .faulted => .refused (.notIdle .faulted)
  | .idle =>
    if s.mem.size < base + bytes.length then .refused .loadOutOfRange
    else .next (s.setMem (s.mem.storeBytes base bytes))

/-- R36: `run`: only in Idle; it changes the run state and nothing else. -/
def hostRun (s : State) : Result :=
  match s.run with
  | .idle => .next (s.setRun .running)
  | .running => .refused (.notIdle .running)
  | .halted => .refused (.notIdle .halted)
  | .faulted => .refused (.notIdle .faulted)

/-- R245: `observe` reads the state in Idle, Halted and Faulted and changes nothing. -/
def hostObserve (s : State) : Result :=
  match s.run with
  | .idle => .next s
  | .halted => .next s
  | .faulted => .next s
  | .running => .refused .observeWhileRunning

end Sys2Proof.Machine
end

