-- ==== Sys2Proof/Safety.lean ====
section
/-!
DEFINITION. What a sound state is, when a run has ended and ended well (R246), and what "unchanged" means, in the terms the
statements use.
-/
namespace Sys2Proof.Machine

/-- R32: at most one flag is set: none before the first CMP (R34), exactly one after it. -/
abbrev Flags.atMostOne (f : Flags) : Prop :=
  (f.lt = false ∨ f.gt = false) ∧ (f.lt = false ∨ f.eq = false) ∧ (f.gt = false ∨ f.eq = false)

/-- R32: exactly one flag is set. -/
abbrev Flags.exactlyOne (f : Flags) : Prop :=
  (f.lt = true ∨ f.gt = true ∨ f.eq = true) ∧ f.atMostOne

/-- R38, R202: a record of kind OutOfRange has a detail, one of kind IllegalInstruction has the opcode and no detail, and
UnsupportedOperation is never recorded (R128). -/
abbrev FaultRecord.wf (r : FaultRecord) : Prop :=
  (r.kind = .outOfRange ∧ r.detail ≠ none) ∨ (r.kind = .illegalInstruction ∧ r.opcode ≠ none ∧ r.detail = none)

/-- The fault record and the run state belong together: a record exactly in Faulted (R35, R38, R206), and it names the
instruction PC stays at (R206). -/
abbrev State.faultSound (s : State) : Prop :=
  (s.run = .faulted ↔ s.fault ≠ none) ∧ ∀ r ∈ s.fault, r.pc = s.pc ∧ r.wf

/-- The invariant of the core: the memory is canonical and has 1 to 256 cells (R6), PC is in 0..256 (R27), at most one flag is set
(R32), and the fault record is sound. -/
abbrev State.Inv (s : State) : Prop :=
  s.mem.wf ∧ (1 ≤ s.mem.size ∧ s.mem.size ≤ 256) ∧ s.pc ≤ 256 ∧ s.flags.atMostOne ∧ s.faultSound

/-- R246: the run has ended. -/
abbrev State.ended (s : State) : Prop := s.run = .halted ∨ s.run = .faulted

/-- R246: the run ended well. -/
abbrev State.endedWell (s : State) : Prop := s.run = .halted ∧ s.fault = none

/-- `s` with the fault of R206 taken: the run state and the record are the only change. -/
abbrev State.faultedWith (s : State) (r : FaultRecord) : State := { s with run := .faulted, fault := some r }

/-- Every register outside `ws` holds in `t` what it held in `s`. -/
abbrev State.regsSameExcept (s t : State) (ws : List RegIdx) : Prop := ∀ r, r ∉ ws → t.reg r = s.reg r

/-- Every byte of memory, and the number of cells, is in `t` what it was in `s`. -/
abbrev State.memSame (s t : State) : Prop := t.mem.size = s.mem.size ∧ ∀ a, t.mem.read a = s.mem.read a

/-- Every byte of memory but the one at `w`, and the number of cells, is in `t` what it was in `s`. -/
abbrev State.memSameExcept (s t : State) (w : Nat) : Prop :=
  t.mem.size = s.mem.size ∧ ∀ a, a ≠ w → t.mem.read a = s.mem.read a

/-- The output stream, the run state and the fault record are in `t` what they were in `s`. -/
abbrev State.restSame (s t : State) : Prop := t.out = s.out ∧ t.run = s.run ∧ t.fault = s.fault

end Sys2Proof.Machine
end

