-- ==== Sys2Proof/Laws/Ops.lean ====
section
/-!
SUPPORT. One lemma for each shared operation that says what it can do.
-/
namespace Sys2Proof.Machine

/-! Register operands (R83, R100). -/

/-- The byte of a register names that register. -/
@[simp] theorem regIndex_regByte (r : RegIdx) : regIndex (regByte r) = some r := by
  simp [regIndex, regByte_toNat]

/-- A byte names a register exactly when it is the register's byte. -/
theorem regIndex_eq_some (b : Byte) (r : RegIdx) : regIndex b = some r ↔ b = regByte r := by
  constructor
  · intro h
    unfold regIndex at h
    split at h
    · obtain rfl := Option.some.inj h
      apply BitVec.eq_of_toNat_eq
      rw [regByte_toNat]
    · cases h
  · rintro rfl
    exact regIndex_regByte r

theorem regIndex_eq_none (b : Byte) : regIndex b = none ↔ 8 ≤ b.toNat := by
  unfold regIndex
  split <;> simp_all

/-- The check of one register field that names a register. -/
@[simp] theorem withReg_regByte (op : Op) (a : RegIdx) (s : State) (rule : RegIdx → Result) :
    withReg op (regByte a) s rule = rule a := by
  simp [withReg]

/-- The check of two register fields that name registers. -/
@[simp] theorem withRegs_regByte (op : Op) (a b : RegIdx) (s : State) (rule : RegIdx → RegIdx → Result) :
    withRegs op (regByte a) (regByte b) s rule = rule a b := by
  simp [withRegs]

/-- Everything the check of one register field can do: it takes the fault with the byte as detail, or the rule answers. -/
theorem withReg_cases {op : Op} {ra : Byte} {s : State} {rule : RegIdx → Result} {q : Result}
    (h : withReg op ra s rule = q) :
    (8 ≤ ra.toNat ∧ q = .next (takeFault .outOfRange (some (opcodeByte op)) (some ra.toNat) s)) ∨
      ∃ a, ra = regByte a ∧ rule a = q := by
  unfold withReg at h
  split at h
  · next hn => exact .inl ⟨(regIndex_eq_none ra).mp hn, h.symm⟩
  · next a ha => exact .inr ⟨a, (regIndex_eq_some ra a).mp ha, h⟩

/-- Everything the check of two register fields can do. -/
theorem withRegs_cases {op : Op} {ra rb : Byte} {s : State} {rule : RegIdx → RegIdx → Result} {q : Result}
    (h : withRegs op ra rb s rule = q) :
    (∃ d, q = .next (takeFault .outOfRange (some (opcodeByte op)) (some d) s)) ∨
      ∃ a b, ra = regByte a ∧ rb = regByte b ∧ rule a b = q := by
  rcases withReg_cases h with ⟨-, hq⟩ | ⟨a, ha, h⟩
  · exact .inl ⟨_, hq⟩
  · rcases withReg_cases h with ⟨-, hq⟩ | ⟨b, hb, h⟩
    · exact .inl ⟨_, hq⟩
    · exact .inr ⟨a, b, ha, hb, h⟩

/-! The ALU (R120, R127). -/

/-- CMP's flags are exactly one of the three. -/
theorem compareFlags_exactlyOne (x y : Byte) : (compareFlags x y).exactlyOne := by
  unfold compareFlags
  split
  · decide
  · split <;> decide

/-- Everything the ALU can do: it writes `x[a]` and no flag, or, for CMP, the flags and no register; and it moves PC by 2 or 3. -/
theorem aluApply_cases {op : Op} {a b : RegIdx} {s t : State} (h : aluApply op a b s = some t) :
    (∃ v w, op ≠ .cmp ∧ (w = 2 ∨ w = 3) ∧ t = (s.setReg a v).advance w) ∨
      (op = .cmp ∧ t = (s.setFlags (compareFlags (s.reg a) (s.reg b))).advance 3) := by
  cases op <;> simp only [aluApply, Option.some.injEq, reduceCtorEq] at h <;> subst h
  case cmp => exact .inr ⟨rfl, rfl⟩
  case not => exact .inl ⟨_, 2, by simp, .inl rfl, rfl⟩
  all_goals exact .inl ⟨_, 3, by simp, .inr rfl, rfl⟩

/-- The ALU refuses no operation of its set. -/
theorem aluDispatch_of_apply {op : Op} {a b : RegIdx} {s t : State} (h : aluApply op a b s = some t) :
    aluDispatch op a b s = .next t := by
  simp [aluDispatch, h]

/-! The stack (R153). -/

/-- Everything a store at SP can do. -/
theorem storeAtSp_eq_some {s t : State} {v : Byte} (h : storeAtSp s v = some t) :
    ∃ m, s.mem.write s.sp.toNat v = some m ∧ t = s.setMem m := by
  unfold storeAtSp at h
  split at h
  · cases h
  · next m hm => exact ⟨m, hm, (Option.some.inj h).symm⟩

theorem storeAtSp_eq_none {s : State} {v : Byte} : storeAtSp s v = none ↔ s.mem.size ≤ s.sp.toNat := by
  rw [← Memory.write_eq_none s.mem s.sp.toNat v]
  unfold storeAtSp
  split <;> simp_all

/-- A store at an SP inside the memory. -/
theorem storeAtSp_of_lt (s : State) (v : Byte) (h : s.sp.toNat < s.mem.size) :
    storeAtSp s v = some (s.setMem { s.mem with cells := cellsSet s.mem.cells s.sp.toNat v }) := by
  simp [storeAtSp, Memory.write, h]

/-! Fetching (R96, R97). -/

/-- Everything the fetch can do. -/
theorem fetch_eq_some {s : State} {f : Fetched} (h : fetch s = some f) :
    s.mem.read s.pc = some f.ir ∧ f.opA = s.mem.read (s.pc + 1) ∧ f.opB = s.mem.read (s.pc + 2) := by
  unfold fetch at h
  split at h
  · cases h
  · next ir hir =>
    obtain rfl := Option.some.inj h
    exact ⟨hir, rfl, rfl⟩

theorem fetch_eq_none {s : State} : fetch s = none ↔ s.mem.size ≤ s.pc := by
  rw [← Memory.read_eq_none]
  unfold fetch
  split <;> simp_all

/-- What latched bytes can be rejected as: an illegal opcode or a missing operand byte (R98, R99). -/
theorem decode_bytes_error {f : Fetched} {e : DecodeError} (h : decode f.bytes = .error e) :
    e = .illegalInstruction f.ir ∨ e = .missingOperand f.ir := by
  simp only [Fetched.bytes, decode] at h
  split at h
  · cases h; exact .inl rfl
  · split at h
    · cases h; exact .inr rfl
    · cases h

/-! One step (R95, R104). -/

/-- Everything a step can do: nothing outside Running; a fault of the fetch or of the decoder; or the decoded instruction. -/
theorem step_cases {s : State} {q : Result} (h : step s = q) :
    (s.run ≠ .running ∧ q = .next s) ∨
    (s.run = .running ∧ fetch s = none ∧ q = raiseFetch s) ∨
    (∃ f e, s.run = .running ∧ fetch s = some f ∧ decode f.bytes = .error e ∧ q = raiseDecode f.ir e s) ∨
    (∃ f i, s.run = .running ∧ fetch s = some f ∧ decode f.bytes = .ok i ∧ exec i s = q) := by
  unfold step at h
  split at h
  · next hr => exact .inl ⟨by simp [hr], h.symm⟩
  · next hr => exact .inl ⟨by simp [hr], h.symm⟩
  · next hr => exact .inl ⟨by simp [hr], h.symm⟩
  · next hr =>
    split at h
    · next hf => exact .inr (.inl ⟨hr, hf, h.symm⟩)
    · next f hf =>
      split at h
      · next e he => exact .inr (.inr (.inl ⟨f, e, hr, hf, he, h.symm⟩))
      · next i hi => exact .inr (.inr (.inr ⟨f, i, hr, hf, hi, h⟩))

end Sys2Proof.Machine
end

