-- ==== Sys2Proof/Laws/Exec.lean ====
section
/-!
SUPPORT. Everything one instruction can do, said once: `exec` always answers a next state, and `ExecEffect` lists which.
-/
namespace Sys2Proof.Machine

/-- The operations the decoder dispatches to the ALU (R120). -/
def aluOps : List Op := [.add, .mul, .and, .or, .xor, .not, .cmp]

/-- What instruction `i` can leave in a state that began as `s`: an OutOfRange fault, or its own effect. -/
inductive ExecEffect (i : Instr) (s : State) : State → Prop where
  | fault (d : Nat) : ExecEffect i s (takeFault .outOfRange (some (opcodeByte i.op)) (some d) s)
  | alu (a b : RegIdx) (t : State) (hop : i.op ∈ aluOps) (ht : aluApply i.op a b s = some t) : ExecEffect i s t
  | ldi (a : RegIdx) (v : Byte) (hop : i.op = .ldi) : ExecEffect i s ((s.setReg a v).advance 3)
  | push (a : RegIdx) (m : Memory) (hop : i.op = .push)
      (hm : s.mem.write (pushAddr s).toNat ((decSp s).reg a) = some m) : ExecEffect i s (((decSp s).setMem m).advance 2)
  | pop (a : RegIdx) (v : Byte) (hop : i.op = .pop) (hv : s.mem.read s.sp.toNat = some v) :
      ExecEffect i s ((incSp (s.setReg a v)).advance 2)
  | call (a : RegIdx) (m : Memory) (hop : i.op = .call) (hpc : s.pc + 2 ≤ 255)
      (hm : s.mem.write (pushAddr s).toNat (mask8 (s.pc + 2)) = some m) : ExecEffect i s (jumpTo a ((decSp s).setMem m))
  | ret (v : Byte) (hop : i.op = .ret) (hv : s.mem.read s.sp.toNat = some v) : ExecEffect i s (incSp (s.setPc v.toNat))
  | jmp (a : RegIdx) (hop : i.op = .jmp) : ExecEffect i s (jumpTo a s)
  | jeq (a : RegIdx) (hop : i.op = .jeq) : ExecEffect i s (if s.flags.eq then jumpTo a s else s.advance 2)
  | jne (a : RegIdx) (hop : i.op = .jne) : ExecEffect i s (if s.flags.eq then s.advance 2 else jumpTo a s)
  | hlt (hop : i.op = .hlt) : ExecEffect i s (s.setRun .halted)
  | prn (a : RegIdx) (hop : i.op = .prn) : ExecEffect i s ((s.emit (s.reg a)).advance 2)

/-- After its decrement SP is the push address. -/
theorem decSp_sp (s : State) : (decSp s).sp = pushAddr s := by simp [decSp, State.setSp_eq]

/-- An instruction with one register field answers its fault or what its rule answers. -/
theorem exec_effect_withReg {i : Instr} {s : State} {op : Op} {ra : Byte} {rule : RegIdx → Result} (hop : i.op = op)
    (h : exec i s = withReg op ra s rule) (hrule : ∀ a, ∃ t, rule a = .next t ∧ ExecEffect i s t) :
    ∃ t, exec i s = .next t ∧ ExecEffect i s t := by
  rcases withReg_cases h.symm with ⟨-, hq⟩ | ⟨a, -, hq⟩
  · exact ⟨_, hq, hop ▸ .fault _⟩
  · obtain ⟨t, ht, he⟩ := hrule a
    exact ⟨t, hq ▸ ht, he⟩

/-- An ALU instruction of format F2R answers its fault or what the ALU answers. -/
theorem exec_effect_aluTwo {i : Instr} {s : State} {op : Op} {ra rb : Byte} (hop : i.op = op) (hmem : op ∈ aluOps)
    (h : exec i s = aluTwo op ra rb s) : ∃ t, exec i s = .next t ∧ ExecEffect i s t := by
  rcases withRegs_cases h.symm with ⟨d, hq⟩ | ⟨a, b, -, -, hq⟩
  · exact ⟨_, hq, hop ▸ .fault d⟩
  · have hsome : ∃ t, aluApply op a b s = some t := by
      cases op <;> simp [aluOps] at hmem <;> exact ⟨_, rfl⟩
    obtain ⟨t, ht⟩ := hsome
    exact ⟨t, hq ▸ aluDispatch_of_apply ht, .alu a b t (hop ▸ hmem) (hop ▸ ht)⟩

/-- Every instruction answers a next state, and `ExecEffect` says which. -/
theorem exec_effect (i : Instr) (s : State) : ∃ t, exec i s = .next t ∧ ExecEffect i s t := by
  cases i with
  | hlt => exact ⟨_, rfl, .hlt rfl⟩
  | ret =>
    cases h : loadAtSp s with
    | none => exact ⟨_, by simp only [exec, execRet, h]; rfl, .fault _⟩
    | some v => exact ⟨_, by simp only [exec, execRet, h], .ret v rfl h⟩
  | push ra =>
    refine exec_effect_withReg (op := .push) (ra := ra) rfl rfl (fun a => ?_)
    cases h : storeAtSp (decSp s) ((decSp s).reg a) with
    | none => exact ⟨_, by simp only [h]; rfl, .fault _⟩
    | some u =>
      obtain ⟨m, hm, rfl⟩ := storeAtSp_eq_some h
      exact ⟨_, by simp only [h], .push a m rfl (decSp_sp s ▸ hm)⟩
  | pop ra =>
    refine exec_effect_withReg (op := .pop) (ra := ra) rfl rfl (fun a => ?_)
    cases h : loadAtSp s with
    | none => exact ⟨_, rfl, .fault _⟩
    | some v => exact ⟨_, rfl, .pop a v rfl h⟩
  | prn ra => exact exec_effect_withReg (op := .prn) (ra := ra) rfl rfl (fun a => ⟨_, rfl, .prn a rfl⟩)
  | call ra =>
    refine exec_effect_withReg (op := .call) (ra := ra) rfl rfl (fun a => ?_)
    by_cases hp : Config.maxReturnAddress < s.pc + 2
    · exact ⟨_, by rw [if_pos hp]; rfl, .fault _⟩
    · cases h : storeAtSp (decSp s) (mask8 (s.pc + 2)) with
      | none => exact ⟨_, by rw [if_neg hp]; simp only [h]; rfl, .fault _⟩
      | some u =>
        obtain ⟨m, hm, rfl⟩ := storeAtSp_eq_some h
        exact ⟨_, by rw [if_neg hp]; simp only [h], .call a m rfl (Nat.le_of_not_lt hp) (decSp_sp s ▸ hm)⟩
  | jmp ra => exact exec_effect_withReg (op := .jmp) (ra := ra) rfl rfl (fun a => ⟨_, rfl, .jmp a rfl⟩)
  | jeq ra => exact exec_effect_withReg (op := .jeq) (ra := ra) rfl rfl (fun a => ⟨_, rfl, .jeq a rfl⟩)
  | jne ra => exact exec_effect_withReg (op := .jne) (ra := ra) rfl rfl (fun a => ⟨_, rfl, .jne a rfl⟩)
  | not ra =>
    exact exec_effect_withReg (op := .not) (ra := ra) rfl rfl (fun a => ⟨_, rfl, .alu a a _ (by simp [aluOps, Instr.op]) rfl⟩)
  | ldi ra imm => exact exec_effect_withReg (op := .ldi) (ra := ra) rfl rfl (fun a => ⟨_, rfl, .ldi a imm rfl⟩)
  | add ra rb => exact exec_effect_aluTwo (op := .add) rfl (by simp [aluOps]) rfl
  | mul ra rb => exact exec_effect_aluTwo (op := .mul) rfl (by simp [aluOps]) rfl
  | cmp ra rb => exact exec_effect_aluTwo (op := .cmp) rfl (by simp [aluOps]) rfl
  | and ra rb => exact exec_effect_aluTwo (op := .and) rfl (by simp [aluOps]) rfl
  | or ra rb => exact exec_effect_aluTwo (op := .or) rfl (by simp [aluOps]) rfl
  | xor ra rb => exact exec_effect_aluTwo (op := .xor) rfl (by simp [aluOps]) rfl

/-- The next state of an instruction is one of its effects. -/
theorem effect_of_exec {i : Instr} {s t : State} (h : exec i s = .next t) : ExecEffect i s t := by
  obtain ⟨u, hu, he⟩ := exec_effect i s
  rw [hu] at h
  cases h
  exact he

end Sys2Proof.Machine
end

