-- ==== Sys2Proof/Certificates/Slice0/Obligations.lean ====
section
/-!
DEFINITION. The statements for the provers, from the spec's numbered rules.

`regByte a` for `a : RegIdx` is every operand byte that names a register; the bytes above 7 have a statement of their own,
`RegisterFieldOutOfRange`. `s.faultedWith r` is `s` with the run state Faulted and the record `r`, and nothing else changed. A rule
the spec marks as a decision D<n> is the spec's own choice (log 8). That a fault of the core is written as a `.next` state and never
as the interface's fault is the model's choice (log 3).
-/

open Sys2Proof Sys2Proof.Machine

/-! Encoding. -/

/-- Decode and encode agree for every instruction and every byte of every operand, in both directions: the decoder reads `i`
exactly from the bytes that begin with the encoding of `i`. -/
def Obligations.DecodeEncodeAgree : Prop :=
  ∀ (bytes : List Byte) (i : Instr), decode bytes = .ok i ↔ ∃ rest, bytes = encode i ++ rest

/-- R85: a word of each of the 17 rows, written out from the table, decodes to the row's instruction, and the row has the
table's format and width. The byte values are the spec's decision D1. -/
def Obligations.DecodesSpecWords : Prop :=
  (decode [0x01] = .ok .hlt ∧ Op.hlt.format = .f0 ∧ Op.hlt.width = 1) ∧
  (decode [0x11] = .ok .ret ∧ Op.ret.format = .f0 ∧ Op.ret.width = 1) ∧
  (decode [0x45, 0x02] = .ok (.push 2) ∧ Op.push.format = .f1 ∧ Op.push.width = 2) ∧
  (decode [0x46, 0x05] = .ok (.pop 5) ∧ Op.pop.format = .f1 ∧ Op.pop.width = 2) ∧
  (decode [0x47, 0x00] = .ok (.prn 0) ∧ Op.prn.format = .f1 ∧ Op.prn.width = 2) ∧
  (decode [0x50, 0x01] = .ok (.call 1) ∧ Op.call.format = .f1 ∧ Op.call.width = 2) ∧
  (decode [0x54, 0x02] = .ok (.jmp 2) ∧ Op.jmp.format = .f1 ∧ Op.jmp.width = 2) ∧
  (decode [0x55, 0x03] = .ok (.jeq 3) ∧ Op.jeq.format = .f1 ∧ Op.jeq.width = 2) ∧
  (decode [0x56, 0x03] = .ok (.jne 3) ∧ Op.jne.format = .f1 ∧ Op.jne.width = 2) ∧
  (decode [0x69, 0x03] = .ok (.not 3) ∧ Op.not.format = .f1 ∧ Op.not.width = 2) ∧
  (decode [0x82, 0x00, 0x08] = .ok (.ldi 0 8) ∧ Op.ldi.format = .f2i ∧ Op.ldi.width = 3) ∧
  (decode [0xA0, 0x00, 0x01] = .ok (.add 0 1) ∧ Op.add.format = .f2r ∧ Op.add.width = 3) ∧
  (decode [0xA2, 0x00, 0x01] = .ok (.mul 0 1) ∧ Op.mul.format = .f2r ∧ Op.mul.width = 3) ∧
  (decode [0xA7, 0x00, 0x01] = .ok (.cmp 0 1) ∧ Op.cmp.format = .f2r ∧ Op.cmp.width = 3) ∧
  (decode [0xA8, 0x02, 0x01] = .ok (.and 2 1) ∧ Op.and.format = .f2r ∧ Op.and.width = 3) ∧
  (decode [0xAA, 0x00, 0x01] = .ok (.or 0 1) ∧ Op.or.format = .f2r ∧ Op.or.width = 3) ∧
  (decode [0xAB, 0x06, 0x05] = .ok (.xor 6 5) ∧ Op.xor.format = .f2r ∧ Op.xor.width = 3)

/-- R87: the listed byte values, 239 of them, are exactly those not in the map; a step that fetches one raises
IllegalInstruction with that byte, PC is not advanced and no other state changes. -/
def Obligations.IllegalOpcodesFault : Prop :=
  (∀ b : Byte, lookupOpcode b = none ↔
    b.toNat = 0x00 ∨ (0x02 ≤ b.toNat ∧ b.toNat ≤ 0x10) ∨ (0x12 ≤ b.toNat ∧ b.toNat ≤ 0x44) ∨
    (0x48 ≤ b.toNat ∧ b.toNat ≤ 0x4F) ∨ (0x51 ≤ b.toNat ∧ b.toNat ≤ 0x53) ∨ (0x57 ≤ b.toNat ∧ b.toNat ≤ 0x68) ∨
    (0x6A ≤ b.toNat ∧ b.toNat ≤ 0x81) ∨ (0x83 ≤ b.toNat ∧ b.toNat ≤ 0x9F) ∨ b.toNat = 0xA1 ∨
    (0xA3 ≤ b.toNat ∧ b.toNat ≤ 0xA6) ∨ b.toNat = 0xA9 ∨ 0xAC ≤ b.toNat) ∧
  ((List.range 256).filter (fun n => (lookupOpcode (mask8 n)).isNone)).length = 239 ∧
  ∀ (s : State) (b : Byte), s.run = .running → s.mem.read s.pc = some b → lookupOpcode b = none →
    step s = .next (s.faultedWith { kind := .illegalInstruction, pc := s.pc, opcode := some b, detail := none })

/-! Memory and reset. -/

/-- R51, R52: a read or write answers exactly inside the array; a write leaves the byte at its address and no other change. -/
def Obligations.MemoryReadAndWrite : Prop :=
  ∀ (m : Memory) (a : Nat) (v : Byte),
    (m.read a = none ↔ m.size ≤ a) ∧ (m.write a v = none ↔ m.size ≤ a) ∧
    (a < m.size → ∃ m', m.write a v = some m' ∧ m'.size = m.size ∧ m'.read a = some v ∧
      ∀ b, b ≠ a → m'.read b = m.read b)

/-- Equal memories are equal data: two canonical memories of the same length that read the same everywhere are the same. -/
def Obligations.CanonicalMemoryUnique : Prop :=
  ∀ m m' : Memory, m.wf → m'.wf → m.size = m'.size → (∀ a, m.read a = m'.read a) → m = m'

/-- R42, R45: SP is 0xF4 at reset, and every memory cell 0x00. -/
def Obligations.ResetStackPointerAndMemory : Prop :=
  State.reset.reg 7 = 0xF4 ∧ State.reset.mem.size = 256 ∧ ∀ a, a < 256 → State.reset.mem.read a = some 0

/-- R41, R43, R44, R46 (the spec's decisions D9, D10, D11, D14, D16): the other reset values. -/
def Obligations.ResetDecidedValues : Prop :=
  State.reset.pc = 0 ∧ (∀ r : RegIdx, r ≠ 7 → State.reset.reg r = 0) ∧
  State.reset.flags = { lt := false, gt := false, eq := false } ∧
  State.reset.run = .idle ∧ State.reset.fault = none ∧ State.reset.out = []

/-- R240: a host reset is admitted in every run state and gives every piece of state its reset value. That it keeps the number of
cells, and so leaves as many cells 0x00 as there were, is not in R240's words: it is the model's deduction from R240 and R50
(DEDUCED, log 10). -/
def Obligations.HostResetConstructsAnew : Prop :=
  ∀ s : State, ∃ t, hostReset s = .next t ∧ t.mem.size = s.mem.size ∧
    (∀ a, a < s.mem.size → t.mem.read a = some 0) ∧ (∀ r : RegIdx, t.reg r = if r = 7 then 0xF4 else 0) ∧ t.pc = 0 ∧
    t.flags = { lt := false, gt := false, eq := false } ∧ t.run = .idle ∧ t.fault = none ∧ t.out = [] ∧
    (s.mem.size = 256 → t = State.reset)

/-! The step. -/

/-- When the latched bytes decode to a well-formed instruction, the step is that instruction's meaning at the same state; the step
adds nothing around it (R101, R102). -/
def Obligations.StepRunsDecodedInstruction : Prop :=
  ∀ (s : State) (f : Fetched) (i : Instr), s.run = .running → fetch s = some f → decode f.bytes = .ok i →
    i.wellFormed = true → step s = exec i s

/-- When memory holds an instruction's encoding from PC on, the step is that instruction's meaning, whatever bytes or missing
cells follow it. -/
def Obligations.StepRunsEncodedBytes : Prop :=
  ∀ (s : State) (i : Instr), s.run = .running →
    (∀ k b, (encode i)[k]? = some b → s.mem.read (s.pc + k) = some b) → step s = exec i s

/-- R96: the opcode is the byte at PC; a fetch at PC of N or more raises OutOfRange with no opcode and PC as detail; with N = 256
and a PC in its range (R27) that is PC = 256. -/
def Obligations.OpcodeFetchOutOfRange : Prop :=
  ∀ s : State, (s.pc < s.mem.size → ∃ f, fetch s = some f ∧ s.mem.read s.pc = some f.ir) ∧
    (s.run = .running → s.mem.size ≤ s.pc →
      step s = .next (s.faultedWith { kind := .outOfRange, pc := s.pc, opcode := none, detail := some s.pc }) ∧
      (s.mem.size = 256 → s.pc ≤ 256 → s.pc = 256))

/-- R97: the latches take the bytes after the opcode; a latch whose address is N or more gets no value; and an instruction of one
byte runs even where both addresses are past the end. -/
def Obligations.SpeculativeOperandLatches : Prop :=
  ∀ s : State, s.pc < s.mem.size →
    ∃ f, fetch s = some f ∧ s.mem.read s.pc = some f.ir ∧ f.opA = s.mem.read (s.pc + 1) ∧ f.opB = s.mem.read (s.pc + 2) ∧
      (s.mem.size ≤ s.pc + 1 → f.opA = none) ∧ (s.mem.size ≤ s.pc + 2 → f.opB = none) ∧
      (s.run = .running → f.ir = 0x01 → step s = exec .hlt s) ∧ (s.run = .running → f.ir = 0x11 → step s = exec .ret s)

/-- R99: where an instruction's last byte is at N or more the step raises OutOfRange with detail N, before any register check;
where it fits, the instruction whose bytes lie at PC runs. -/
def Obligations.OperandBytesOutOfRange : Prop :=
  ∀ (s : State) (ir : Byte) (op : Op), s.run = .running → s.mem.read s.pc = some ir → lookupOpcode ir = some op →
    if s.mem.size ≤ s.pc + op.width - 1 then
      step s = .next (s.faultedWith { kind := .outOfRange, pc := s.pc, opcode := some ir, detail := some s.mem.size })
    else ∃ i : Instr, i.op = op ∧ (∀ k b, (encode i)[k]? = some b → s.mem.read (s.pc + k) = some b) ∧ step s = exec i s

/-- R23, R100: the first register field, in the order `ra`, `rb`, that is greater than 7 raises OutOfRange with the byte as
detail, whatever the state (a jump taken or not), and the instruction writes nothing. -/
def Obligations.RegisterFieldOutOfRange : Prop :=
  ∀ (i : Instr) (s : State) (before after : List Byte) (b : Byte),
    i.regFields = before ++ b :: after → (∀ c ∈ before, c.toNat ≤ 7) → 7 < b.toNat →
    exec i s = .next
      (s.faultedWith { kind := .outOfRange, pc := s.pc, opcode := some (opcodeByte i.op), detail := some b.toNat })

/-- R202, R208: the causes of a fault are exactly these, and a step reports the first that applies in this order: the opcode
fetch, an illegal opcode, the operand bytes, `ra`, `rb`, CALL's return address, a stack access; where none applies the step is the
instruction's own effect without a fault. -/
def Obligations.StepReportsFirstFault : Prop :=
  ∀ s : State, s.run = .running →
    match s.mem.read s.pc with
    | none => step s = .next (s.faultedWith { kind := .outOfRange, pc := s.pc, opcode := none, detail := some s.pc })
    | some ir =>
      match lookupOpcode ir with
      | none =>
        step s = .next (s.faultedWith { kind := .illegalInstruction, pc := s.pc, opcode := some ir, detail := none })
      | some op =>
        let outOfRange (d : Nat) : State :=
          s.faultedWith { kind := .outOfRange, pc := s.pc, opcode := some ir, detail := some d }
        if s.mem.size ≤ s.pc + op.width - 1 then step s = .next (outOfRange s.mem.size)
        else ∃ i : Instr, i.op = op ∧ (∀ k b, (encode i)[k]? = some b → s.mem.read (s.pc + k) = some b) ∧
          match i.regFields.find? (fun b => decide (7 < b.toNat)) with
          | some b => step s = .next (outOfRange b.toNat)
          | none =>
            if op = .call ∧ 255 < s.pc + 2 then step s = .next (outOfRange (s.pc + 2))
            else if (op = .push ∨ op = .call) ∧ s.mem.size ≤ (s.reg 7 - 1).toNat then
              step s = .next (outOfRange (s.reg 7 - 1).toNat)
            else if (op = .pop ∨ op = .ret) ∧ s.mem.size ≤ (s.reg 7).toNat then
              step s = .next (outOfRange (s.reg 7).toNat)
            else ∃ t, step s = .next t ∧ exec i s = .next t ∧ t.run ≠ .faulted ∧ t.fault = s.fault

/-- R101, R206: taking a fault sets the record and Faulted and changes nothing else, and faults are precise. A step that ends in Faulted changes the run state and the fault record only, and the record
names the address PC stays at; any other step leaves the record alone. -/
def Obligations.FaultsArePrecise : Prop :=
  (∀ (kind : FaultKind) (opcode : Option Byte) (detail : Option Nat) (s : State), takeFault kind opcode detail s =
    s.faultedWith { kind := kind, pc := s.pc, opcode := opcode, detail := detail }) ∧
  ∀ s t : State, s.run = .running → step s = .next t →
    (t.run = .faulted → ∃ r, r.pc = s.pc ∧ t = s.faultedWith r) ∧ (t.run ≠ .faulted → t.fault = s.fault)

/-- R203: no opcode reaches UnsupportedOperation: from a state without a fault record no step leaves a record of that kind. -/
def Obligations.UnsupportedOperationUnreachable : Prop :=
  ∀ (s t : State) (r : FaultRecord), s.fault = none → step s = .next t → t.fault = some r → r.kind ≠ .unsupportedOperation

/-- R95: outside Running no step is performed. That the model then answers the state unchanged is its own choice (log 1). -/
def Obligations.NoStepOutsideRunning : Prop :=
  ∀ s : State, s.run ≠ .running → step s = .next s

/-- Every step from every state answers a next state. For a running core without a fault this is the step R104 gives. The two other
clauses are the model's choice and no rule of the spec: a fault of the core, taken as R206 says, is answered as a next state and
never as the interface's fault (DESIGN CHOICE, log 3); and outside Running, where R95 has no step performed, the answer is next with
the state unchanged (DESIGN CHOICE, log 1). -/
def Obligations.StepAlwaysAnswersNext : Prop :=
  ∀ s : State, ∃ t, step s = .next t

/-! The ALU instructions. Each says the encoding, the result and what is left unchanged. -/

/-- R121. -/
def Obligations.AddResult : Prop :=
  ∀ (s : State) (a b : RegIdx), encode (.add (regByte a) (regByte b)) = [0xA0, regByte a, regByte b] ∧
    ∃ t, exec (.add (regByte a) (regByte b)) s = .next t ∧
      (t.reg a).toNat = ((s.reg a).toNat + (s.reg b).toNat) % 256 ∧ t.pc = s.pc + 3 ∧
      s.regsSameExcept t [a] ∧ t.flags = s.flags ∧ s.memSame t ∧ s.restSame t

/-- R122. -/
def Obligations.MulResult : Prop :=
  ∀ (s : State) (a b : RegIdx), encode (.mul (regByte a) (regByte b)) = [0xA2, regByte a, regByte b] ∧
    ∃ t, exec (.mul (regByte a) (regByte b)) s = .next t ∧
      (t.reg a).toNat = ((s.reg a).toNat * (s.reg b).toNat) % 256 ∧ t.pc = s.pc + 3 ∧
      s.regsSameExcept t [a] ∧ t.flags = s.flags ∧ s.memSame t ∧ s.restSame t

/-- R123, bit by bit. -/
def Obligations.AndResult : Prop :=
  ∀ (s : State) (a b : RegIdx), encode (.and (regByte a) (regByte b)) = [0xA8, regByte a, regByte b] ∧
    ∃ t, exec (.and (regByte a) (regByte b)) s = .next t ∧
      (∀ k, (t.reg a).getLsbD k = ((s.reg a).getLsbD k && (s.reg b).getLsbD k)) ∧ t.pc = s.pc + 3 ∧
      s.regsSameExcept t [a] ∧ t.flags = s.flags ∧ s.memSame t ∧ s.restSame t

/-- R124, bit by bit. -/
def Obligations.OrResult : Prop :=
  ∀ (s : State) (a b : RegIdx), encode (.or (regByte a) (regByte b)) = [0xAA, regByte a, regByte b] ∧
    ∃ t, exec (.or (regByte a) (regByte b)) s = .next t ∧
      (∀ k, (t.reg a).getLsbD k = ((s.reg a).getLsbD k || (s.reg b).getLsbD k)) ∧ t.pc = s.pc + 3 ∧
      s.regsSameExcept t [a] ∧ t.flags = s.flags ∧ s.memSame t ∧ s.restSame t

/-- R125, bit by bit. -/
def Obligations.XorResult : Prop :=
  ∀ (s : State) (a b : RegIdx), encode (.xor (regByte a) (regByte b)) = [0xAB, regByte a, regByte b] ∧
    ∃ t, exec (.xor (regByte a) (regByte b)) s = .next t ∧
      (∀ k, (t.reg a).getLsbD k = ((s.reg a).getLsbD k != (s.reg b).getLsbD k)) ∧ t.pc = s.pc + 3 ∧
      s.regsSameExcept t [a] ∧ t.flags = s.flags ∧ s.memSame t ∧ s.restSame t

/-- R126: 0xFF - x, which is the complement of each of the 8 bits; PC advances by 2 (C1). -/
def Obligations.NotResult : Prop :=
  ∀ (s : State) (a : RegIdx), encode (.not (regByte a)) = [0x69, regByte a] ∧
    ∃ t, exec (.not (regByte a)) s = .next t ∧
      (t.reg a).toNat = 0xFF - (s.reg a).toNat ∧ (∀ k, k < 8 → (t.reg a).getLsbD k = !(s.reg a).getLsbD k) ∧
      t.pc = s.pc + 2 ∧ s.regsSameExcept t [a] ∧ t.flags = s.flags ∧ s.memSame t ∧ s.restSame t

/-- R127: all three flags from the unsigned comparison, exactly one of them set; no register is written. -/
def Obligations.CmpResult : Prop :=
  ∀ (s : State) (a b : RegIdx), encode (.cmp (regByte a) (regByte b)) = [0xA7, regByte a, regByte b] ∧
    ∃ t, exec (.cmp (regByte a) (regByte b)) s = .next t ∧
      (t.flags.eq = true ↔ (s.reg a).toNat = (s.reg b).toNat) ∧ (t.flags.gt = true ↔ (s.reg b).toNat < (s.reg a).toNat) ∧
      (t.flags.lt = true ↔ (s.reg a).toNat < (s.reg b).toNat) ∧ t.flags.exactlyOne ∧ t.pc = s.pc + 3 ∧
      s.regsSameExcept t [] ∧ s.memSame t ∧ s.restSame t

/-! Data transfer. -/

/-- R150. -/
def Obligations.LdiResult : Prop :=
  ∀ (s : State) (a : RegIdx) (imm : Byte), encode (.ldi (regByte a) imm) = [0x82, regByte a, imm] ∧
    ∃ t, exec (.ldi (regByte a) imm) s = .next t ∧ t.reg a = imm ∧ t.pc = s.pc + 3 ∧
      s.regsSameExcept t [a] ∧ t.flags = s.flags ∧ s.memSame t ∧ s.restSame t

/-- R151: SP is decremented modulo 256, then `x[a]` is stored at SP, so PUSH R7 stores the decremented SP. Where that SP is N or
more (N below 256) OutOfRange is raised with it as detail and nothing is committed. -/
def Obligations.PushResult : Prop :=
  ∀ (s : State) (a : RegIdx), encode (.push (regByte a)) = [0x45, regByte a] ∧ pushAddr s = s.reg 7 - 1 ∧
    ((pushAddr s).toNat < s.mem.size →
      ∃ t, exec (.push (regByte a)) s = .next t ∧ t.reg 7 = pushAddr s ∧
        t.mem.read (pushAddr s).toNat = some (if a = 7 then pushAddr s else s.reg a) ∧ t.pc = s.pc + 2 ∧
        s.regsSameExcept t [7] ∧ t.flags = s.flags ∧ s.memSameExcept t (pushAddr s).toNat ∧ s.restSame t) ∧
    (s.mem.size ≤ (pushAddr s).toNat → exec (.push (regByte a)) s = .next
      (s.faultedWith { kind := .outOfRange, pc := s.pc, opcode := some 0x45, detail := some (pushAddr s).toNat }))

/-- R152: the byte at SP is written to `x[a]`, then SP is incremented modulo 256, so POP R7 leaves the byte plus 1; memory keeps
the byte. Where SP is N or more (N below 256) OutOfRange is raised with SP as detail and nothing is committed. -/
def Obligations.PopResult : Prop :=
  ∀ (s : State) (a : RegIdx), encode (.pop (regByte a)) = [0x46, regByte a] ∧
    (∀ v, s.mem.read (s.reg 7).toNat = some v →
      ∃ t, exec (.pop (regByte a)) s = .next t ∧
        (if a = 7 then t.reg 7 = v + 1 else t.reg a = v ∧ t.reg 7 = s.reg 7 + 1) ∧ t.pc = s.pc + 2 ∧
        s.regsSameExcept t [a, 7] ∧ t.flags = s.flags ∧ s.memSame t ∧ s.restSame t) ∧
    (s.mem.size ≤ (s.reg 7).toNat → exec (.pop (regByte a)) s = .next
      (s.faultedWith { kind := .outOfRange, pc := s.pc, opcode := some 0x46, detail := some (s.reg 7).toNat }))

/-! Control transfer. -/

/-- R170: the return address PC + 2, which must fit in a byte (D18), is pushed; then PC takes `x[a]`, read after the push. The two
faults commit nothing. -/
def Obligations.CallResult : Prop :=
  ∀ (s : State) (a : RegIdx), encode (.call (regByte a)) = [0x50, regByte a] ∧
    (s.pc + 2 ≤ 255 → (pushAddr s).toNat < s.mem.size →
      ∃ t, exec (.call (regByte a)) s = .next t ∧ t.reg 7 = pushAddr s ∧
        (∃ v, t.mem.read (pushAddr s).toNat = some v ∧ v.toNat = s.pc + 2) ∧
        t.pc = (if a = 7 then pushAddr s else s.reg a).toNat ∧
        s.regsSameExcept t [7] ∧ t.flags = s.flags ∧ s.memSameExcept t (pushAddr s).toNat ∧ s.restSame t) ∧
    (255 < s.pc + 2 → exec (.call (regByte a)) s = .next
      (s.faultedWith { kind := .outOfRange, pc := s.pc, opcode := some 0x50, detail := some (s.pc + 2) })) ∧
    (s.pc + 2 ≤ 255 → s.mem.size ≤ (pushAddr s).toNat → exec (.call (regByte a)) s = .next
      (s.faultedWith { kind := .outOfRange, pc := s.pc, opcode := some 0x50, detail := some (pushAddr s).toNat }))

/-- R171: PC takes the byte at SP, and SP is incremented modulo 256. Where SP is N or more (N below 256) OutOfRange is raised. -/
def Obligations.RetResult : Prop :=
  ∀ s : State, encode .ret = [0x11] ∧
    (∀ v, s.mem.read (s.reg 7).toNat = some v →
      ∃ t, exec .ret s = .next t ∧ t.pc = v.toNat ∧ t.reg 7 = s.reg 7 + 1 ∧
        s.regsSameExcept t [7] ∧ t.flags = s.flags ∧ s.memSame t ∧ s.restSame t) ∧
    (s.mem.size ≤ (s.reg 7).toNat → exec .ret s = .next
      (s.faultedWith { kind := .outOfRange, pc := s.pc, opcode := some 0x11, detail := some (s.reg 7).toNat }))

/-- R172. -/
def Obligations.JmpResult : Prop :=
  ∀ (s : State) (a : RegIdx), encode (.jmp (regByte a)) = [0x54, regByte a] ∧
    ∃ t, exec (.jmp (regByte a)) s = .next t ∧ t.pc = (s.reg a).toNat ∧
      s.regsSameExcept t [] ∧ t.flags = s.flags ∧ s.memSame t ∧ s.restSame t

/-- R173. -/
def Obligations.JeqResult : Prop :=
  ∀ (s : State) (a : RegIdx), encode (.jeq (regByte a)) = [0x55, regByte a] ∧
    ∃ t, exec (.jeq (regByte a)) s = .next t ∧ t.pc = (if s.flags.eq = true then (s.reg a).toNat else s.pc + 2) ∧
      s.regsSameExcept t [] ∧ t.flags = s.flags ∧ s.memSame t ∧ s.restSame t

/-- R174. -/
def Obligations.JneResult : Prop :=
  ∀ (s : State) (a : RegIdx), encode (.jne (regByte a)) = [0x56, regByte a] ∧
    ∃ t, exec (.jne (regByte a)) s = .next t ∧ t.pc = (if s.flags.eq = false then (s.reg a).toNat else s.pc + 2) ∧
      s.regsSameExcept t [] ∧ t.flags = s.flags ∧ s.memSame t ∧ s.restSame t

/-! System. -/

/-- R190: HLT ends the run, PC stays at its own address (D17), whatever a further step answers changes nothing, Halted is left by
reset alone, and no other instruction leads to it. -/
def Obligations.HltResult : Prop :=
  ∀ s : State, encode .hlt = [0x01] ∧
    (∃ t, exec .hlt s = .next t ∧ t.run = .halted ∧ t.pc = s.pc ∧ s.regsSameExcept t [] ∧ t.flags = s.flags ∧
      s.memSame t ∧ t.out = s.out ∧ t.fault = s.fault ∧ (∀ u, step t = .next u → u = t) ∧
      hostRun t = .refused (.notIdle .halted) ∧ ∀ bytes base, hostLoad bytes base t = .refused (.notIdle .halted)) ∧
    ∀ (i : Instr) (t : State), s.run = .running → exec i s = .next t → t.run = .halted → i = .hlt

/-- R191: PRN appends exactly the register's value to the output stream. -/
def Obligations.PrnResult : Prop :=
  ∀ (s : State) (a : RegIdx), encode (.prn (regByte a)) = [0x47, regByte a] ∧
    ∃ t, exec (.prn (regByte a)) s = .next t ∧ t.out = s.out ++ [s.reg a] ∧ t.pc = s.pc + 2 ∧
      s.regsSameExcept t [] ∧ t.flags = s.flags ∧ s.memSame t ∧ t.run = s.run ∧ t.fault = s.fault

/-! Rules of the whole machine. -/

/-- R32: only CMP writes the flags, and each CMP that names registers leaves exactly one set. -/
def Obligations.OnlyCmpWritesFlags : Prop :=
  ∀ (i : Instr) (s t : State), exec i s = .next t →
    (i.op ≠ .cmp → t.flags = s.flags) ∧ (i.op = .cmp → i.wellFormed = true → t.flags.exactlyOne)

/-- R33: LT and GT are read by no instruction, and EQ by JEQ and JNE alone: an instruction run with other values in the flags it
does not read gives the same state but for the flags. -/
def Obligations.FlagsReadOnlyByJumps : Prop :=
  ∀ (i : Instr) (s t u : State) (f : Flags), exec i s = .next t → exec i { s with flags := f } = .next u →
    (f.eq = s.flags.eq ∨ (i.op ≠ .jeq ∧ i.op ≠ .jne)) → u = { t with flags := u.flags }

/-- R54: among the instructions only PUSH and CALL write memory, one byte at the decremented SP. -/
def Obligations.OnlyPushAndCallWriteMemory : Prop :=
  ∀ (i : Instr) (s t : State), exec i s = .next t →
    (i.op ≠ .push → i.op ≠ .call → s.memSame t) ∧ s.memSameExcept t (pushAddr s).toNat

/-- R39: the output stream is empty at reset, only PRN adds to it, at its end, and no instruction reads it: with another stream
before, the instruction adds the same and changes all else alike. -/
def Obligations.OutputStreamAppendOnly : Prop :=
  State.reset.out = [] ∧
  ∀ (i : Instr) (s t : State), exec i s = .next t →
    ∃ added, t.out = s.out ++ added ∧ (i.op ≠ .prn → added = []) ∧ added.length ≤ 1 ∧
      ∀ o, exec i { s with out := o } = .next { t with out := o ++ added }

/-- R35: the run state changes only from Running, to Halted by HLT or to Faulted by a fault. -/
def Obligations.RunStateChanges : Prop :=
  ∀ s t : State, step s = .next t → t.run ≠ s.run →
    s.run = .running ∧
      ((t.run = .halted ∧ s.mem.read s.pc = some 0x01) ∨ (t.run = .faulted ∧ ∃ r, t.fault = some r ∧ r.pc = s.pc))

/-- R35, R209, R218: Halted and Faulted are left by reset alone: no answer of a step changes anything, the host's run and load are
refused, and reset leads to Idle. -/
def Obligations.TerminalUntilReset : Prop :=
  ∀ s : State, s.ended →
    (∀ u, step s = .next u → u = s) ∧ hostRun s = .refused (.notIdle s.run) ∧
    (∀ bytes base, hostLoad bytes base s = .refused (.notIdle s.run)) ∧ ∃ t, hostReset s = .next t ∧ t.run = .idle

/-- R246: once a run has ended, no number of further steps changes its final state. -/
def Obligations.EndedRunKeepsItsState : Prop :=
  ∀ (s t : State) (k : Nat), s.ended → Host.Core.run Sys2Proof.core k s = .next t → t = s

/-- R53: with N = 256 no data access of PUSH, POP or RET, nor of a CALL whose return address fits, raises a fault. -/
def Obligations.StackAccessFitsAt256 : Prop :=
  ∀ (s : State) (i : Instr), s.mem.size = 256 → i.wellFormed = true → (i.op = .call → s.pc + 2 ≤ 255) →
    ∃ t, exec i s = .next t ∧ t.fault = s.fault

/-- R50: the memory is fixed in size. -/
def Obligations.StepKeepsMemorySize : Prop :=
  ∀ s t : State, step s = .next t → t.mem.size = s.mem.size

/-! Two instructions in a row. -/

/-- R151, R152 (C7): PUSH then POP into a register, neither of them R7, gives the value and restores SP. -/
def Obligations.PushThenPopRoundTrip : Prop :=
  ∀ (s : State) (a b : RegIdx), a ≠ 7 → b ≠ 7 → (pushAddr s).toNat < s.mem.size →
    ∃ t u, exec (.push (regByte a)) s = .next t ∧ exec (.pop (regByte b)) t = .next u ∧
      u.reg b = s.reg a ∧ u.reg 7 = s.reg 7 ∧ u.pc = s.pc + 4 ∧ s.regsSameExcept u [b]

/-- R176: CALL followed by RET returns to PC + 2 and restores every register, SP among them. -/
def Obligations.CallThenRetReturns : Prop :=
  ∀ (s : State) (a : RegIdx), s.pc + 2 ≤ 255 → (pushAddr s).toNat < s.mem.size →
    ∃ t u, exec (.call (regByte a)) s = .next t ∧ exec .ret t = .next u ∧ u.pc = s.pc + 2 ∧ ∀ r, u.reg r = s.reg r

/-- R126: NOT twice restores the register, PC advancing by 2 each time. -/
def Obligations.NotTwiceRestores : Prop :=
  ∀ (s : State) (a : RegIdx), ∃ t u, exec (.not (regByte a)) s = .next t ∧ exec (.not (regByte a)) t = .next u ∧
    t.pc = s.pc + 2 ∧ u.pc = s.pc + 4 ∧ ∀ r, u.reg r = s.reg r

/-- R247 with R127, R173, R174: the flags CMP writes are seen by the next JEQ or JNE, so JEQ jumps exactly when the two values are
equal and JNE exactly when they are not. -/
def Obligations.CompareThenJump : Prop :=
  ∀ (s : State) (a b c : RegIdx), ∃ t u w, exec (.cmp (regByte a) (regByte b)) s = .next t ∧
    exec (.jeq (regByte c)) t = .next u ∧ exec (.jne (regByte c)) t = .next w ∧
    u.pc = (if s.reg a = s.reg b then (s.reg c).toNat else s.pc + 5) ∧
    w.pc = (if s.reg a = s.reg b then s.pc + 5 else (s.reg c).toNat)

/-- R65: a byte PUSH stores over the next instruction is what the next step fetches, and a byte it stores over its own operand
does not change the step that stores it. -/
def Obligations.PushedByteIsFetchedNext : Prop :=
  ∀ (s : State) (a : RegIdx), s.run = .running → a ≠ 7 → s.mem.read s.pc = some 0x45 →
    s.mem.read (s.pc + 1) = some (regByte a) →
    ((pushAddr s).toNat = s.pc + 2 → s.pc + 2 < s.mem.size →
      ∃ t f, step s = .next t ∧ fetch t = some f ∧ t.pc = s.pc + 2 ∧ f.ir = s.reg a) ∧
    ((pushAddr s).toNat = s.pc + 1 →
      ∃ t, step s = .next t ∧ t.mem.read (s.pc + 1) = some (s.reg a) ∧ t.reg 7 = pushAddr s ∧ t.pc = s.pc + 2)

/-! The host's port, the trace port and the fault codes. -/

/-- R67: `load` in Idle writes the image's bytes from `base` on, and changes no other cell and nothing else; an image that does
not fit is refused. -/
def Obligations.LoadWritesImage : Prop :=
  ∀ (s : State) (bytes : List Byte) (base : Nat), s.run = .idle →
    (s.mem.size < base + bytes.length → hostLoad bytes base s = .refused .loadOutOfRange) ∧
    (base + bytes.length ≤ s.mem.size →
      ∃ t, hostLoad bytes base s = .next t ∧ (∀ k b, bytes[k]? = some b → t.mem.read (base + k) = some b) ∧
        (∀ a, a < base ∨ base + bytes.length ≤ a → t.mem.read a = s.mem.read a) ∧ t.mem.size = s.mem.size ∧
        s.regsSameExcept t [] ∧ t.pc = s.pc ∧ t.flags = s.flags ∧ s.restSame t)

/-- R36, R68, R245: an image that fits is loaded in Idle, which stays Idle, so that another load may follow; outside Idle, and for
an image that does not fit, the host's transactions are refused; `run` in Idle changes the run state and nothing else; the state is observed outside Running only. -/
def Obligations.HostTransactionsAdmitted : Prop :=
  (∀ s bytes base, s.run = .idle → s.mem.size < base + bytes.length → hostLoad bytes base s = .refused .loadOutOfRange) ∧
  (∀ s bytes base, s.run = .idle → base + bytes.length ≤ s.mem.size →
    ∃ t, hostLoad bytes base s = .next t ∧ t.run = .idle) ∧
  (∀ s bytes base, s.run ≠ .idle → hostLoad bytes base s = .refused (.notIdle s.run)) ∧
  (∀ s, s.run = .idle → hostRun s = .next { s with run := .running }) ∧
  (∀ s, s.run ≠ .idle → hostRun s = .refused (.notIdle s.run)) ∧
  (∀ s, s.run ≠ .running → hostObserve s = .next s) ∧
  (∀ s, s.run = .running → hostObserve s = .refused .observeWhileRunning)

/-- R242: after reset, a load at 0 and `run`, the first step runs the image's first instruction; with nothing loaded it raises
IllegalInstruction(0x00). -/
def Obligations.BootRunsFirstInstruction : Prop :=
  (∀ (i : Instr) (rest : List Byte), (encode i ++ rest).length ≤ 256 →
    ∃ t u, hostLoad (encode i ++ rest) 0 State.reset = .next t ∧ hostRun t = .next u ∧ u.pc = 0 ∧ step u = exec i u) ∧
  ∃ u, hostRun State.reset = .next u ∧
    step u = .next (u.faultedWith { kind := .illegalInstruction, pc := 0, opcode := some 0x00, detail := none })

/-- R216: the trace event of a step carries PC, the three bytes from PC on (none where absent) and all registers; there is none for
a step whose opcode fetch is out of range, nor where no step is performed. -/
def Obligations.TraceEventContents : Prop :=
  ∀ s : State,
    (s.run = .running → s.pc < s.mem.size → ∃ e, traceEvent s = some e ∧ e.pc = s.pc ∧ s.mem.read s.pc = some e.bytes.ir ∧
      e.bytes.opA = s.mem.read (s.pc + 1) ∧ e.bytes.opB = s.mem.read (s.pc + 2) ∧ e.x = s.x) ∧
    (s.mem.size ≤ s.pc → traceEvent s = none) ∧ (s.run ≠ .running → traceEvent s = none)

/-- R200: the codes of the fault kinds, and 0x00 for the reset value of the record. -/
def Obligations.FaultCodes : Prop :=
  State.reset.faultCode = 0x00 ∧
  ∀ (s : State) (r : FaultRecord), s.fault = some r →
    (r.kind = .illegalInstruction → s.faultCode = 0x01) ∧ (r.kind = .outOfRange → s.faultCode = 0x02) ∧
    (r.kind = .unsupportedOperation → s.faultCode = 0x03)

/-! The invariant. -/

/-- Every step keeps the invariant `State.Inv`: canonical memory of 1 to 256 cells, PC in 0..256 (R27), at most one flag set (R32),
and a fault record exactly in Faulted that names the instruction PC stays at (R38, R206). -/
def Obligations.StepKeepsInvariant : Prop :=
  ∀ s t : State, s.Inv → step s = .next t → t.Inv

/-- The invariant holds at reset. -/
def Obligations.ResetHasInvariant : Prop := State.reset.Inv

/-- Every transaction of the host keeps the invariant. -/
def Obligations.HostKeepsInvariant : Prop :=
  ∀ s t : State, s.Inv →
    (hostReset s = .next t → t.Inv) ∧ (∀ bytes base, hostLoad bytes base s = .next t → t.Inv) ∧
    (hostRun s = .next t → t.Inv) ∧ (hostObserve s = .next t → t.Inv)
end

