-- ==== Sys2Proof/Laws/PerInstr.lean ====
section
/-!
SUPPORT. Statements made for every instruction as syntax, one lemma per constructor.
-/
namespace Sys2Proof.Laws.OpcodeFields

/-- R82, for a row of the opcode map: bits 7..6 of the opcode count the operand bytes, bit 5 marks the ALU's operations, and
bit 4 marks those that may set PC other than sequentially. -/
abbrev OpFields (op : Op) : Prop :=
  ((opcodeByte op).extractLsb 7 6).toNat = op.format.operandCount ∧
    ((opcodeByte op).getLsbD 5 = true ↔ op ∈ [Op.add, Op.mul, Op.cmp, Op.and, Op.or, Op.xor, Op.not]) ∧
    ((opcodeByte op).getLsbD 4 = true ↔ op ∈ [Op.call, Op.ret, Op.jmp, Op.jeq, Op.jne])

theorem opFields (op : Op) : OpFields op := by cases op <;> decide

/-- R80, R82: an instruction's opcode has those fields, and it has as many operand bytes, and so the width, that its format says. -/
def Statement (i : Instr) : Prop :=
  OpFields i.op ∧ i.operands.length = i.op.format.operandCount ∧ (encode i).length = i.op.width

theorem hlt : Statement .hlt := ⟨opFields _, rfl, rfl⟩
theorem ret : Statement .ret := ⟨opFields _, rfl, rfl⟩
theorem push (ra : Byte) : Statement (.push ra) := ⟨opFields _, rfl, rfl⟩
theorem pop (ra : Byte) : Statement (.pop ra) := ⟨opFields _, rfl, rfl⟩
theorem prn (ra : Byte) : Statement (.prn ra) := ⟨opFields _, rfl, rfl⟩
theorem call (ra : Byte) : Statement (.call ra) := ⟨opFields _, rfl, rfl⟩
theorem jmp (ra : Byte) : Statement (.jmp ra) := ⟨opFields _, rfl, rfl⟩
theorem jeq (ra : Byte) : Statement (.jeq ra) := ⟨opFields _, rfl, rfl⟩
theorem jne (ra : Byte) : Statement (.jne ra) := ⟨opFields _, rfl, rfl⟩
theorem not (ra : Byte) : Statement (.not ra) := ⟨opFields _, rfl, rfl⟩
theorem ldi (ra imm : Byte) : Statement (.ldi ra imm) := ⟨opFields _, rfl, rfl⟩
theorem add (ra rb : Byte) : Statement (.add ra rb) := ⟨opFields _, rfl, rfl⟩
theorem mul (ra rb : Byte) : Statement (.mul ra rb) := ⟨opFields _, rfl, rfl⟩
theorem cmp (ra rb : Byte) : Statement (.cmp ra rb) := ⟨opFields _, rfl, rfl⟩
theorem and (ra rb : Byte) : Statement (.and ra rb) := ⟨opFields _, rfl, rfl⟩
theorem or (ra rb : Byte) : Statement (.or ra rb) := ⟨opFields _, rfl, rfl⟩
theorem xor (ra rb : Byte) : Statement (.xor ra rb) := ⟨opFields _, rfl, rfl⟩

end Sys2Proof.Laws.OpcodeFields
end

