-- ==== Sys2Proof/Machine/Assembly.lean ====
section
/-!
DEFINITION. The assembler notation of R90 (D29): the bytes of a program written in it. It is notation for images, and no part of
the core's state or step depends on it. A text is a list of characters, one list a line. What R90 and D29 leave open of the notation
is the model's choice (DESIGN CHOICE, safe for claims about the hardware, log 11), said at the definition that settles it.
-/
namespace Sys2Proof.Machine

/-- A line of text. -/
abbrev Text := List Char

/-- A character that separates words. That it is the space or the tab is the model's choice (log 11). -/
def isBlank (c : Char) : Bool := c == ' ' || c == '\t'

/-- A text without blanks at either end. -/
def trim (t : Text) : Text := ((t.dropWhile isBlank).reverse.dropWhile isBlank).reverse

/-- The text before the first `mark` and the text after it, if the mark stands there. -/
def cutAt (mark : Char) : Text → Text × Option Text
  | [] => ([], none)
  | c :: rest =>
    if c == mark then ([], some rest)
    else
      let (before, after) := cutAt mark rest
      (c :: before, after)

/-- R90: comma-separated operands, each without blanks around it. -/
def splitCommas : Text → List Text
  | [] => [[]]
  | c :: rest =>
    if c == ',' then [] :: splitCommas rest
    else match splitCommas rest with
      | [] => [[c]]
      | word :: more => (c :: word) :: more

/-- R85: the mnemonics, in capitals alone (the model's choice, log 11). -/
def mnemonicText : Op → Text
  | .hlt => ['H', 'L', 'T']
  | .ret => ['R', 'E', 'T']
  | .push => ['P', 'U', 'S', 'H']
  | .pop => ['P', 'O', 'P']
  | .prn => ['P', 'R', 'N']
  | .call => ['C', 'A', 'L', 'L']
  | .jmp => ['J', 'M', 'P']
  | .jeq => ['J', 'E', 'Q']
  | .jne => ['J', 'N', 'E']
  | .not => ['N', 'O', 'T']
  | .ldi => ['L', 'D', 'I']
  | .add => ['A', 'D', 'D']
  | .mul => ['M', 'U', 'L']
  | .cmp => ['C', 'M', 'P']
  | .and => ['A', 'N', 'D']
  | .or => ['O', 'R']
  | .xor => ['X', 'O', 'R']

/-- R91: every mnemonic is exactly one row of the map. -/
def readMnemonic (t : Text) : Option Op :=
  (opcodeTable.map (fun row => row.2)).find? (fun op => mnemonicText op == t)

/-- The value of a digit, in either case of a hex letter (the model's choice, log 11). -/
def digitValue (c : Char) : Option Nat :=
  if '0' ≤ c ∧ c ≤ '9' then some (c.toNat - 48)
  else if 'a' ≤ c ∧ c ≤ 'f' then some (c.toNat - 87)
  else if 'A' ≤ c ∧ c ≤ 'F' then some (c.toNat - 55)
  else none

/-- The number digits of a base stand for, after the value of the digits before them. -/
def readDigits (base : Nat) (soFar : Nat) : Text → Option Nat
  | [] => some soFar
  | c :: rest =>
    match digitValue c with
    | none => none
    | some d => if d < base then readDigits base (soFar * base + d) rest else none

/-- R90: a number in decimal, in hex (`0x..`) or in binary (`0b..`). -/
def readNumber : Text → Option Nat
  | [] => none
  | '0' :: 'x' :: c :: rest => readDigits 16 0 (c :: rest)
  | '0' :: 'b' :: c :: rest => readDigits 2 0 (c :: rest)
  | c :: rest => readDigits 10 0 (c :: rest)

/-- R90: R0 to R7, and SP for R7. -/
def readRegister : Text → Option Byte
  | ['S', 'P'] => some (regByte Config.spIndex)
  | ['R', c] => if '0' ≤ c ∧ c ≤ '7' then some (mask8 (c.toNat - 48)) else none
  | _ => none

/-- R90: an immediate from 0 to 255, as a number or as a label's address. Two points that R90 and D29 leave open are the model's
choice (DESIGN CHOICE, safe for claims about the hardware, log 11): a word that reads as a number is that number, even where a label
has the same name; and of a name defined on more than one line the first definition counts. A label whose address is above 255 is no immediate. -/
def readImmediate (labels : List (Text × Nat)) (t : Text) : Option Byte :=
  let value := match readNumber t with
    | some v => some v
    | none => (labels.find? (fun l => l.1 == t)).map (fun l => l.2)
  match value with
  | none => none
  | some v => if v < 256 then some (mask8 v) else none

/-- A line without its comment, as its label, if it has one, and the instruction's text (R90). A label may stand before an
instruction on the same line, and its name is every character before the first colon but for blanks at either end (the model's
choice, log 11). -/
def splitLine (line : Text) : Option Text × Text :=
  match cutAt ':' (cutAt '#' line).1 with
  | (body, none) => (none, trim body)
  | (label, some body) => (some (trim label), trim body)

/-- The mnemonic of an instruction's text and its operands. -/
def splitInstr (body : Text) : Option Op × List Text :=
  let word := body.takeWhile (fun c => !isBlank c)
  let rest := trim (body.dropWhile (fun c => !isBlank c))
  (readMnemonic word, if rest.isEmpty then [] else (splitCommas rest).map trim)

/-- The operand bytes of a format, in the encoding order (R81, R90). -/
def readOperands (labels : List (Text × Nat)) (f : Format) (operands : List Text) : Option (List Byte) :=
  match f, operands with
  | .f0, [] => some []
  | .f1, [a] => (readRegister a).map (fun x => [x])
  | .f2r, [a, b] => (readRegister a).bind (fun x => (readRegister b).map (fun y => [x, y]))
  | .f2i, [a, v] => (readRegister a).bind (fun x => (readImmediate labels v).map (fun y => [x, y]))
  | _, _ => none

/-- The first pass: each label with the address of the next instruction, counted from the load base (log 11), in the order of the
lines, so that `readImmediate` finds the first definition of a name. A label after the last instruction has the address after
it (log 11). -/
def collectLabels (address : Nat) : List Text → List (Text × Nat)
  | [] => []
  | line :: rest =>
    let (label, body) := splitLine line
    let width := match (splitInstr body).1 with
      | none => 0
      | some op => op.width
    let more := collectLabels (address + width) rest
    match label with
    | none => more
    | some l => (l, address) :: more

/-- The second pass: the bytes of the lines; none where a line is not of R90's form, such as a label without a name (the model's
choice, log 11). -/
def assembleLines (labels : List (Text × Nat)) : List Text → Option (List Byte)
  | [] => some []
  | line :: rest =>
    let (label, body) := splitLine line
    if label == some [] then none
    else if body.isEmpty then assembleLines labels rest
    else match splitInstr body with
      | (none, _) => none
      | (some op, operands) =>
        match readOperands labels op.format operands, assembleLines labels rest with
        | some bytes, some more => some (opcodeByte op :: bytes ++ more)
        | _, _ => none

/-- The image of a program loaded at `base`. -/
def assembleProgram (base : Nat) (lines : List Text) : Option (List Byte) :=
  assembleLines (collectLabels base lines) lines

end Sys2Proof.Machine
end

