-- ==== Sys2Proof/Tests/Slice0.lean ====
section
/-!
SUPPORT. The model's own tests. Expected values are those of 95_test_vectors.md (named ALU-n, DT-n, CT-n, SY-n, FD-n, L1-S3 there),
never the model's own answers. Then a witness for the hypotheses of every statement that has some.
-/
namespace Sys2Proof.Tests

open Sys2Proof.Machine

/-- The next state of an answer. -/
def after : Result → Option State
  | .next t => some t
  | .fault _ => none
  | .refused _ => none

/-- A running core at `pc` with the given bytes there, registers and flags; the rest as at reset. -/
def coreAt (pc : Nat) (bytes : List Byte) (x : Vector Byte 8) (f : Flags) : State :=
  placeAtPc { State.reset with pc := pc, x := x, flags := f } bytes

/-- The registers at reset, but for R0 and R1. -/
def regs2 (x0 x1 : Byte) : Vector Byte 8 := #v[x0, x1, 0, 0, 0, 0, 0, 0xF4]

/-- The registers at reset, but for R0 and R7. -/
def regsSp (x0 sp : Byte) : Vector Byte 8 := #v[x0, 0, 0, 0, 0, 0, 0, sp]

/-- The flags at reset. -/
def noFlags : Flags := { lt := false, gt := false, eq := false }

/-- The flags after a comparison of equal values. -/
def eqFlags : Flags := { lt := false, gt := false, eq := true }

/-- A register and the PC after one step. -/
def regPc (s : State) (r : RegIdx) : Option (Byte × Nat) := (after (step s)).map (fun t => (t.reg r, t.pc))

/-- The fault record, the run state and the PC after one step. -/
def faultOf (s : State) : Option (Option FaultRecord × RunState × Nat) :=
  (after (step s)).map (fun t => (t.fault, t.run, t.pc))

/-! WellFormed: each check refuses an ill-formed term. -/

theorem test_wellFormed_ra : (Instr.push 8).wellFormed = false ∧ (Instr.push 7).wellFormed = true := by decide
theorem test_wellFormed_ra_two : (Instr.add 0xFF 0).wellFormed = false := by decide
theorem test_wellFormed_rb : (Instr.add 0 9).wellFormed = false ∧ (Instr.add 0 7).wellFormed = true := by decide
theorem test_wellFormed_imm_free : (Instr.ldi 7 0xFF).wellFormed = true ∧ (Instr.ldi 8 1).wellFormed = false := by decide

/-! Decoding: a word of each constructor written out bit by bit from R85's binary column. -/

theorem test_decode_hlt : decode [0b00000001] = .ok .hlt := by decide
theorem test_decode_ret : decode [0b00010001] = .ok .ret := by decide
theorem test_decode_push : decode [0b01000101, 0b00000010] = .ok (.push 2) := by decide
theorem test_decode_pop : decode [0b01000110, 0b00000101] = .ok (.pop 5) := by decide
theorem test_decode_prn : decode [0b01000111, 0b00000111] = .ok (.prn 7) := by decide
theorem test_decode_call : decode [0b01010000, 0b00000001] = .ok (.call 1) := by decide
theorem test_decode_jmp : decode [0b01010100, 0b00000010] = .ok (.jmp 2) := by decide
theorem test_decode_jeq : decode [0b01010101, 0b00000011] = .ok (.jeq 3) := by decide
theorem test_decode_jne : decode [0b01010110, 0b00000011] = .ok (.jne 3) := by decide
theorem test_decode_not : decode [0b01101001, 0b00000011, 0b00001001] = .ok (.not 3) := by decide
theorem test_decode_ldi : decode [0b10000010, 0b00000101, 0b11111111] = .ok (.ldi 5 0xFF) := by decide
theorem test_decode_add : decode [0b10100000, 0b00000111, 0b00000000] = .ok (.add 7 0) := by decide
theorem test_decode_mul : decode [0b10100010, 0b00000100, 0b00000011] = .ok (.mul 4 3) := by decide
theorem test_decode_cmp : decode [0b10100111, 0b00000000, 0b00000001] = .ok (.cmp 0 1) := by decide
theorem test_decode_and : decode [0b10101000, 0b00000010, 0b00000001] = .ok (.and 2 1) := by decide
theorem test_decode_or : decode [0b10101010, 0b00000000, 0b00000001] = .ok (.or 0 1) := by decide
theorem test_decode_xor : decode [0b10101011, 0b00000110, 0b00000101] = .ok (.xor 6 5) := by decide

/-- R87: rejected by name; FD-7: before a missing operand. R99: a missing operand. -/
theorem test_decode_rejects : decode [0x00] = .error (.illegalInstruction 0x00) ∧
    decode [0x03] = .error (.illegalInstruction 0x03) ∧ decode [0xA0, 0x00] = .error (.missingOperand 0xA0) ∧
    decode [] = .error .noOpcode := by decide

/-- R90's example `LDI R0, 8` is 82 00 08, as the host numbers its bits. -/
theorem test_decodeTableWord : decodeTableWord 24 0x080082 = some (.ldi 0 8) ∧ decodeTableWord 8 0x01 = some .hlt ∧
    decodeTableWord 8 0x00 = none := by decide

/-- The instruction placed for the host is the first that runs after reset (DT-1). -/
theorem test_withFetchWord : regPc (State.reset.withFetchWord 24 0x080082) 0 = some (8, 3) := by decide

/-! The ALU instructions. -/

/-- ALU-5 and ALU-3. -/
theorem test_add : regPc (coreAt 0 [0xA0, 0, 1] (regs2 200 100) noFlags) 0 = some (44, 3) ∧
    regPc (coreAt 0 [0xA0, 0, 1] (regs2 0xFF 1) noFlags) 0 = some (0, 3) := by decide
/-- ALU-6: the source is the destination. -/
theorem test_add_same : regPc (coreAt 0 [0xA0, 0, 0] (regs2 0x81 0) noFlags) 0 = some (0x02, 3) := by decide
/-- ALU-7 and ALU-9. -/
theorem test_mul : regPc (coreAt 0 [0xA2, 0, 1] (regs2 8 9) noFlags) 0 = some (72, 3) ∧
    regPc (coreAt 0 [0xA2, 0, 1] (regs2 0xFF 0xFF) noFlags) 0 = some (1, 3) := by decide
/-- ALU-13, with R0 in the place of R2. -/
theorem test_and : regPc (coreAt 0 [0xA8, 0, 1] (regs2 0xF0 0x3C) noFlags) 0 = some (0x30, 3) := by decide
/-- ALU-17. -/
theorem test_or : regPc (coreAt 0 [0xAA, 0, 1] (regs2 0x12 0x34) noFlags) 0 = some (0x36, 3) := by decide
/-- ALU-19. -/
theorem test_xor : regPc (coreAt 0 [0xAB, 0, 1] (regs2 0xFF 0x0F) noFlags) 0 = some (0xF0, 3) := by decide
/-- ALU-35: the byte after NOT's operand is not checked. -/
theorem test_not : regPc (coreAt 0x10 [0x69, 0, 9] (regs2 0 0) noFlags) 0 = some (0xFF, 0x12) := by decide
/-- ALU-24, with R0 in the place of R3. -/
theorem test_not_mixed : regPc (coreAt 0 [0x69, 0] (regs2 0x5A 0) noFlags) 0 = some (0xA5, 2) := by decide
/-- ALU-29 and ALU-27: the comparison is unsigned. -/
theorem test_cmp :
    (after (step (coreAt 0 [0xA7, 0, 1] (regs2 0x80 0x7F) noFlags))).map State.flags = some { lt := false, gt := true, eq := false } ∧
    (after (step (coreAt 0 [0xA7, 0, 1] (regs2 0 255) noFlags))).map State.flags = some { lt := true, gt := false, eq := false } := by
  decide
/-- ALU-26 and ALU-32. -/
theorem test_cmp_eq :
    (after (step (coreAt 0 [0xA7, 0, 1] (regs2 5 5) noFlags))).map State.flags = some eqFlags ∧
    (after (step (coreAt 0 [0xA0, 0, 1] (regs2 1 1) eqFlags))).map State.flags = some eqFlags := by decide
/-- ALU-34. -/
theorem test_add_bad_rb : faultOf (coreAt 0 [0xA0, 0, 9] (regs2 1 1) noFlags) =
    some (some { kind := .outOfRange, pc := 0, opcode := some 0xA0, detail := some 9 }, .faulted, 0) := by decide

/-! Data transfer. -/

/-- DT-2. -/
theorem test_ldi : regPc (coreAt 0 [0x82, 7, 0x10] (regsSp 0 0xF4) noFlags) 7 = some (0x10, 3) := by decide
/-- DT-4. -/
theorem test_ldi_bad_ra : faultOf (coreAt 5 [0x82, 8, 1] (regsSp 0 0xF4) noFlags) =
    some (some { kind := .outOfRange, pc := 5, opcode := some 0x82, detail := some 8 }, .faulted, 5) := by decide
/-- DT-6, with R0 in the place of R1: SP wraps. -/
theorem test_push : (after (step (coreAt 0 [0x45, 0] (regsSp 0xAB 0) noFlags))).map (fun t => (t.sp, t.mem.read 0xFF, t.pc)) =
    some (0xFF, some 0xAB, 2) := by decide
/-- DT-7: PUSH R7 stores the decremented SP. -/
theorem test_push_sp : (after (step (coreAt 0 [0x45, 7] (regsSp 0 0xF4) noFlags))).map (fun t => (t.sp, t.mem.read 0xF3)) =
    some (0xF3, some 0xF3) := by decide
/-- DT-11: no underflow fault. -/
theorem test_pop : (after (step (coreAt 0 [0x46, 0] (regsSp 9 0xF4) noFlags))).map (fun t => (t.reg 0, t.sp, t.pc)) =
    some (0, 0xF5, 2) := by decide
/-- DT-10 with the byte 0x46 of the instruction itself at SP: POP R7 leaves the popped byte plus 1. -/
theorem test_pop_sp : regPc (coreAt 0x20 [0x46, 7] (regsSp 0 0x20) noFlags) 7 = some (0x47, 0x22) := by decide
/-- DT-12. -/
theorem test_push_at_top : faultOf (coreAt 0xFF [0x45] (regsSp 0 0xF4) noFlags) =
    some (some { kind := .outOfRange, pc := 0xFF, opcode := some 0x45, detail := some 256 }, .faulted, 0xFF) := by decide

/-! Control transfer. -/

/-- CT-1. -/
theorem test_call : (after (step (coreAt 6 [0x50, 1] (regs2 0 0x0B) noFlags))).map (fun t => (t.sp, t.mem.read 0xF3, t.pc)) =
    some (0xF3, some 8, 0x0B) := by decide
/-- CT-2 and CT-3. -/
theorem test_call_corners : regPc (coreAt 0x10 [0x50, 7] (regs2 0 0) noFlags) 7 = some (0xF3, 0xF3) ∧
    faultOf (coreAt 0xFE [0x50, 1] (regs2 0 0) noFlags) =
      some (some { kind := .outOfRange, pc := 0xFE, opcode := some 0x50, detail := some 0x100 }, .faulted, 0xFE) := by decide
/-- CT-7. -/
theorem test_ret : regPc (coreAt 0x30 [0x11] (regsSp 0 0xF4) noFlags) 7 = some (0xF5, 0) := by decide
/-- CT-8: SP wraps; the byte at 0xFF is the RET's own opcode 0x11. -/
theorem test_ret_wraps : regPc (coreAt 0xFF [0x11] (regsSp 0 0xFF) noFlags) 7 = some (0, 0x11) := by decide
/-- CT-9, with R0 in the place of R2. -/
theorem test_jmp : regPc (coreAt 0 [0x54, 0] (regs2 0x20 0) noFlags) 0 = some (0x20, 0x20) := by decide
/-- CT-11 and CT-12, with R0 in the place of R3. -/
theorem test_jeq : regPc (coreAt 0x10 [0x55, 0] (regs2 0x0C 0) eqFlags) 0 = some (0x0C, 0x0C) ∧
    regPc (coreAt 0x10 [0x55, 0] (regs2 0x0C 0) { lt := true, gt := false, eq := false }) 0 = some (0x0C, 0x12) := by decide
/-- CT-17: checked even though not taken. -/
theorem test_jeq_bad_ra : faultOf (coreAt 0 [0x55, 9] (regs2 0 0) noFlags) =
    some (some { kind := .outOfRange, pc := 0, opcode := some 0x55, detail := some 9 }, .faulted, 0) := by decide
/-- CT-14 and CT-15, with R0 in the place of R3. -/
theorem test_jne : regPc (coreAt 0x10 [0x56, 0] (regs2 0x0C 0) { lt := false, gt := true, eq := false }) 0 = some (0x0C, 0x0C) ∧
    regPc (coreAt 0x10 [0x56, 0] (regs2 0x0C 0) eqFlags) 0 = some (0x0C, 0x12) := by decide

/-! System. -/

/-- SY-2: the speculative fetch past memory is harmless. -/
theorem test_hlt : faultOf (coreAt 0xFF [0x01] (regs2 0 0) noFlags) = some (none, .halted, 0xFF) := by decide
/-- SY-4. -/
theorem test_prn : (after (step (coreAt 0 [0x47, 7] (regs2 0 0) noFlags))).map (fun t => (t.out, t.pc)) = some ([244], 2) := by
  decide
/-- SY-6. -/
theorem test_prn_bad_ra : (after (step (coreAt 0 [0x47, 8] (regs2 0 0) noFlags))).map (fun t => (t.run, t.out)) =
    some (.faulted, []) := by decide

/-! Fetching. -/

/-- FD-4. -/
theorem test_fetch_out_of_range : faultOf (coreAt 0x100 [] (regs2 0 0) noFlags) =
    some (some { kind := .outOfRange, pc := 0x100, opcode := none, detail := some 0x100 }, .faulted, 0x100) := by decide
/-- L1-S3 instance a. -/
theorem test_illegal : faultOf (coreAt 0 [0xA1, 0, 1] (regs2 0 0) noFlags) =
    some (some { kind := .illegalInstruction, pc := 0, opcode := some 0xA1, detail := none }, .faulted, 0) := by decide
/-- FD-6: `ra` is checked first. -/
theorem test_ra_before_rb : faultOf (coreAt 0 [0xA0, 8, 9] (regs2 0 0) noFlags) =
    some (some { kind := .outOfRange, pc := 0, opcode := some 0xA0, detail := some 8 }, .faulted, 0) := by decide
/-- FD-9: an image that does not fit is refused. -/
theorem test_load_refused : hostLoad [1, 2, 3] 0xFE State.reset = .refused .loadOutOfRange := rfl
/-- FD-8: `run` in Halted is refused. -/
theorem test_run_refused : hostRun (State.reset.setRun .halted) = .refused (.notIdle .halted) := rfl

/-! The assembler notation. -/

/-- R90's examples `LDI R0, 8` and `PRN R0`. -/
theorem test_assemble : assembleProgram 0 [['L', 'D', 'I', ' ', 'R', '0', ',', ' ', '8'], ['P', 'R', 'N', ' ', 'R', '0']] = some [0x82, 0, 8, 0x47, 0] := by decide
/-- R90: SP for R7, a label as an immediate, a comment; the bytes are R85's. -/
theorem test_assemble_label : assembleProgram 0
    [['L', 'D', 'I', ' ', 'S', 'P', ',', ' ', 's', 'u', 'b', ' ', '#', ' ', 'c', 'a', 'l', 'l'],
     ['H', 'L', 'T'],
     ['s', 'u', 'b', ':', ' ', 'A', 'D', 'D', ' ', 'R', '0', ',', ' ', 'R', '7']] =
    some [0x82, 7, 4, 0x01, 0xA0, 0, 7] := by decide
/-- R90: hex and binary immediates; a value above 255 and a register R8 are refused. -/
theorem test_assemble_numbers : readImmediate [] ['0', 'x', 'F', '0'] = some 0xF0 ∧ readImmediate [] ['0', 'b', '1', '0', '1'] = some 5 ∧
    readImmediate [] ['2', '5', '6'] = none ∧ readRegister ['R', '8'] = none := by decide
/-- R90: a label is `name:`; a colon with no name before it is not of that form. -/
theorem test_assemble_label_name : assembleProgram 0 [['a', ':', 'H', 'L', 'T']] = some [0x01] ∧
    assembleProgram 0 [[':', 'H', 'L', 'T']] = none := by decide

/-! Witnesses: for each statement with hypotheses, a concrete state and operands that meet them, and one for each clause. -/

/-- A running core at 0 with `ADD R0, R1` there. -/
def addState : State := coreAt 0 [0xA0, 0, 1] (regs2 2 3) noFlags

/-- A core of 16 cells (R6 allows it), so that SP = 0xF4 and SP - 1 lie outside. -/
def smallState (bytes : List Byte) : State :=
  placeAtPc (State.resetWith 16) bytes

theorem witness_IllegalOpcodesFault :
    (coreAt 0 [0x00] (regs2 0 0) noFlags).run = .running ∧
    (coreAt 0 [0x00] (regs2 0 0) noFlags).mem.read (coreAt 0 [0x00] (regs2 0 0) noFlags).pc = some 0x00 ∧
    lookupOpcode 0x00 = none ∧ lookupOpcode 0xAC = none ∧ lookupOpcode 0xFF = none ∧ lookupOpcode 0xAB = some .xor := by decide

theorem witness_MemoryReadAndWrite : 255 < State.reset.mem.size ∧ State.reset.mem.size ≤ 256 := by decide

theorem witness_CanonicalMemoryUnique :
    Memory.wf { size := 256, cells := [(3, 5), (9, 1)] } ∧ Memory.wf { size := 256, cells := [(3, 5), (9, 1)] } := by decide

theorem witness_HostResetConstructsAnew : addState.mem.size = 256 ∧ 255 < addState.mem.size := by decide

theorem witness_StepRunsDecodedInstruction : addState.run = .running ∧
    fetch addState = some { ir := 0xA0, opA := some 0, opB := some 1 } ∧
    decode (Fetched.bytes { ir := 0xA0, opA := some 0, opB := some 1 }) = .ok (.add 0 1) ∧
    (Instr.add 0 1).wellFormed = true := by decide

theorem witness_StepRunsEncodedBytes : addState.run = .running ∧
    ∀ k b, (encode (.add 0 1))[k]? = some b → addState.mem.read (addState.pc + k) = some b := by
  refine ⟨by decide, fun k b h => ?_⟩
  match k, h with
  | 0, h => exact (by decide : addState.mem.read (addState.pc + 0) = some 0xA0).trans h
  | 1, h => exact (by decide : addState.mem.read (addState.pc + 1) = some 0).trans h
  | 2, h => exact (by decide : addState.mem.read (addState.pc + 2) = some 1).trans h

theorem witness_OpcodeFetchOutOfRange : (coreAt 255 [0x01] (regs2 0 0) noFlags).pc < (coreAt 255 [0x01] (regs2 0 0) noFlags).mem.size ∧
    (coreAt 256 [] (regs2 0 0) noFlags).run = .running ∧
    (coreAt 256 [] (regs2 0 0) noFlags).mem.size ≤ (coreAt 256 [] (regs2 0 0) noFlags).pc ∧
    (coreAt 256 [] (regs2 0 0) noFlags).mem.size = 256 ∧ (coreAt 256 [] (regs2 0 0) noFlags).pc ≤ 256 := by decide

theorem witness_SpeculativeOperandLatches :
    (coreAt 255 [0x01] (regs2 0 0) noFlags).pc < (coreAt 255 [0x01] (regs2 0 0) noFlags).mem.size ∧
    (coreAt 255 [0x01] (regs2 0 0) noFlags).mem.size ≤ (coreAt 255 [0x01] (regs2 0 0) noFlags).pc + 1 ∧
    (coreAt 254 [0x01] (regs2 0 0) noFlags).mem.size ≤ (coreAt 254 [0x01] (regs2 0 0) noFlags).pc + 2 ∧
    (coreAt 255 [0x01] (regs2 0 0) noFlags).run = .running ∧
    (coreAt 255 [0x11] (regs2 0 0) noFlags).mem.read 255 = some 0x11 := by decide

/-- A two-byte instruction at 255 does not fit, one at 254 does; a three-byte instruction at 254 does not. -/
theorem witness_OperandBytesOutOfRange :
    (coreAt 255 [0x45] (regs2 0 0) noFlags).run = .running ∧
    (coreAt 255 [0x45] (regs2 0 0) noFlags).mem.read 255 = some 0x45 ∧ lookupOpcode 0x45 = some .push ∧
    (coreAt 255 [0x45] (regs2 0 0) noFlags).mem.size ≤ 255 + Op.push.width - 1 ∧
    ¬ (coreAt 254 [0x45, 0] (regs2 0 0) noFlags).mem.size ≤ 254 + Op.push.width - 1 ∧
    (coreAt 254 [0x82, 0] (regs2 0 0) noFlags).mem.size ≤ 254 + Op.ldi.width - 1 := by decide

/-- `ra` is the first bad field, and `rb` is, at 8. -/
theorem witness_RegisterFieldOutOfRange :
    ((Instr.add 8 9).regFields = [] ++ (8 : Byte) :: [9] ∧ 7 < (8 : Byte).toNat) ∧
    ((Instr.add 7 8).regFields = [7] ++ (8 : Byte) :: [] ∧ ∀ c ∈ [(7 : Byte)], c.toNat ≤ 7) := by decide

/-- One state for each clause: the fetch, an illegal opcode, the operand bytes, `ra`, `rb`, CALL at 254, a stack access (16 cells)
of PUSH and of RET, and no fault. -/
theorem witness_StepReportsFirstFault :
    (coreAt 256 [] (regs2 0 0) noFlags).mem.read 256 = none ∧
    ((coreAt 0 [0x00] (regs2 0 0) noFlags).mem.read 0 = some 0 ∧ lookupOpcode 0x00 = none) ∧
    ((coreAt 254 [0xA0, 9] (regs2 0 0) noFlags).mem.read 254 = some 0xA0 ∧ lookupOpcode 0xA0 = some .add) ∧
    (Instr.add 8 9).regFields.find? (fun b => decide (7 < b.toNat)) = some 8 ∧
    (Instr.add 0 9).regFields.find? (fun b => decide (7 < b.toNat)) = some 9 ∧
    255 < (coreAt 254 [0x50, 0] (regs2 0 0) noFlags).pc + 2 ∧
    (smallState [0x45, 0]).mem.size ≤ ((smallState [0x45, 0]).reg 7 - 1).toNat ∧
    (smallState [0x11]).mem.size ≤ ((smallState [0x11]).reg 7).toNat ∧ addState.run = .running := by decide

theorem witness_FaultsArePrecise : addState.run = .running ∧
    (∃ t, step addState = .next t ∧ t.run ≠ .faulted) ∧
    (coreAt 0 [0x00] (regs2 0 0) noFlags).run = .running ∧
    ∃ t, step (coreAt 0 [0x00] (regs2 0 0) noFlags) = .next t ∧ t.run = .faulted :=
  ⟨by decide, ⟨_, rfl, by decide⟩, by decide, ⟨_, rfl, by decide⟩⟩

theorem witness_UnsupportedOperationUnreachable :
    (coreAt 0 [0x00] (regs2 0 0) noFlags).fault = none ∧
    ∃ t, step (coreAt 0 [0x00] (regs2 0 0) noFlags) = .next t ∧
      t.fault = some { kind := .illegalInstruction, pc := 0, opcode := some 0, detail := none } :=
  ⟨by decide, ⟨_, rfl, by decide⟩⟩

theorem witness_NoStepOutsideRunning : State.reset.run ≠ .running ∧ (State.reset.setRun .halted).run ≠ .running ∧
    (State.reset.setRun .faulted).run ≠ .running := by decide

theorem witness_HltResult : addState.run = .running ∧ ∃ t, exec .hlt addState = .next t ∧ t.run = .halted ∧ ∃ u, step t = .next u :=
  ⟨by decide, ⟨_, rfl, rfl, ⟨_, rfl⟩⟩⟩

/-- SP in the middle, SP = 0 (the wrap), and a memory of 16 cells. -/
theorem witness_PushResult : (pushAddr addState).toNat < addState.mem.size ∧
    (pushAddr (coreAt 0 [0x45, 0] (regsSp 1 0) noFlags)).toNat < (coreAt 0 [0x45, 0] (regsSp 1 0) noFlags).mem.size ∧
    (smallState [0x45, 0]).mem.size ≤ (pushAddr (smallState [0x45, 0])).toNat := by decide

theorem witness_PopResult : addState.mem.read (addState.reg 7).toNat = some 0 ∧
    (coreAt 0 [0x46, 0] (regsSp 1 0xFF) noFlags).mem.read ((coreAt 0 [0x46, 0] (regsSp 1 0xFF) noFlags).reg 7).toNat = some 0 ∧
    (smallState [0x46, 0]).mem.size ≤ ((smallState [0x46, 0]).reg 7).toNat := by decide

/-- CALL at 253, the last address it completes at, and at 254, the first it faults at. -/
theorem witness_CallResult :
    ((coreAt 253 [0x50, 0] (regs2 0 0) noFlags).pc + 2 ≤ 255 ∧
      (pushAddr (coreAt 253 [0x50, 0] (regs2 0 0) noFlags)).toNat < (coreAt 253 [0x50, 0] (regs2 0 0) noFlags).mem.size) ∧
    255 < (coreAt 254 [0x50, 0] (regs2 0 0) noFlags).pc + 2 ∧
    ((smallState [0x50, 0]).pc + 2 ≤ 255 ∧ (smallState [0x50, 0]).mem.size ≤ (pushAddr (smallState [0x50, 0])).toNat) := by
  decide

theorem witness_RetResult : addState.mem.read (addState.reg 7).toNat = some 0 ∧
    (smallState [0x11]).mem.size ≤ ((smallState [0x11]).reg 7).toNat := by decide

theorem witness_OnlyCmpWritesFlags : (∃ t, exec (.add 0 1) addState = .next t) ∧ (Instr.add 0 1).op ≠ .cmp ∧
    (∃ t, exec (.cmp 0 1) addState = .next t) ∧ (Instr.cmp 0 1).op = .cmp ∧ (Instr.cmp 0 1).wellFormed = true :=
  ⟨⟨_, rfl⟩, by decide, ⟨_, rfl⟩, by decide, by decide⟩

/-- JEQ with another LT, and ADD with another EQ. -/
theorem witness_FlagsReadOnlyByJumps :
    ((∃ t, exec (.jeq 0) addState = .next t) ∧
      (∃ u, exec (.jeq 0) { addState with flags := { lt := true, gt := false, eq := false } } = .next u) ∧
      false = addState.flags.eq) ∧
    ((∃ t, exec (.add 0 1) addState = .next t) ∧ (∃ u, exec (.add 0 1) { addState with flags := eqFlags } = .next u) ∧
      (Instr.add 0 1).op ≠ .jeq ∧ (Instr.add 0 1).op ≠ .jne) :=
  ⟨⟨⟨_, rfl⟩, ⟨_, rfl⟩, by decide⟩, ⟨⟨_, rfl⟩, ⟨_, rfl⟩, by decide, by decide⟩⟩

theorem witness_OnlyPushAndCallWriteMemory : (∃ t, exec (.pop 0) addState = .next t) ∧ (Instr.pop 0).op ≠ .push ∧
    (Instr.pop 0).op ≠ .call ∧ ∃ t, exec (.push 0) addState = .next t :=
  ⟨⟨_, rfl⟩, by decide, by decide, ⟨_, rfl⟩⟩

theorem witness_OutputStreamAppendOnly : (∃ t, exec (.prn 0) addState = .next t) ∧ (∃ t, exec (.add 0 1) addState = .next t) ∧
    (Instr.add 0 1).op ≠ .prn :=
  ⟨⟨_, rfl⟩, ⟨_, rfl⟩, by decide⟩

/-- A HLT and a fault. -/
theorem witness_RunStateChanges :
    (∃ t, step (coreAt 0 [0x01] (regs2 0 0) noFlags) = .next t ∧ t.run ≠ (coreAt 0 [0x01] (regs2 0 0) noFlags).run) ∧
    (∃ t, step (coreAt 0 [0x00] (regs2 0 0) noFlags) = .next t ∧ t.run ≠ (coreAt 0 [0x00] (regs2 0 0) noFlags).run) :=
  ⟨⟨_, rfl, by decide⟩, ⟨_, rfl, by decide⟩⟩

theorem witness_TerminalUntilReset : (State.reset.setRun .halted).ended ∧ (State.reset.setRun .faulted).ended ∧
    (∃ u, step (State.reset.setRun .halted) = .next u) ∧ ∃ u, step (State.reset.setRun .faulted) = .next u :=
  ⟨by decide, by decide, ⟨_, rfl⟩, ⟨_, rfl⟩⟩

theorem witness_EndedRunKeepsItsState : (addState.setRun .halted).ended ∧ (addState.setRun .faulted).ended ∧
    (∃ t, Host.Core.run Sys2Proof.core 3 (addState.setRun .halted) = .next t) ∧
    ∃ t, Host.Core.run Sys2Proof.core 3 (addState.setRun .faulted) = .next t :=
  ⟨by decide, by decide, ⟨_, rfl⟩, ⟨_, rfl⟩⟩

theorem witness_StackAccessFitsAt256 : addState.mem.size = 256 ∧ (Instr.call 7).wellFormed = true ∧
    ((Instr.call 7).op = .call → addState.pc + 2 ≤ 255) ∧ (Instr.push 0).wellFormed = true := by decide

theorem witness_StepKeepsMemorySize : ∃ t, step addState = .next t := ⟨_, rfl⟩

theorem witness_PushThenPopRoundTrip : (2 : RegIdx) ≠ 7 ∧ (5 : RegIdx) ≠ 7 ∧
    (pushAddr addState).toNat < addState.mem.size := by decide

theorem witness_CallThenRetReturns : addState.pc + 2 ≤ 255 ∧ (pushAddr addState).toNat < addState.mem.size := by decide

/-- The pushed byte falls on the next instruction, and on the PUSH's own operand. -/
theorem witness_PushedByteIsFetchedNext :
    ((coreAt 0x10 [0x45, 0] (regsSp 0x01 0x13) noFlags).run = .running ∧ (0 : RegIdx) ≠ 7 ∧
      (coreAt 0x10 [0x45, 0] (regsSp 0x01 0x13) noFlags).mem.read 0x10 = some 0x45 ∧
      (coreAt 0x10 [0x45, 0] (regsSp 0x01 0x13) noFlags).mem.read 0x11 = some (regByte 0) ∧
      (pushAddr (coreAt 0x10 [0x45, 0] (regsSp 0x01 0x13) noFlags)).toNat = 0x10 + 2 ∧
      0x10 + 2 < (coreAt 0x10 [0x45, 0] (regsSp 0x01 0x13) noFlags).mem.size) ∧
    ((coreAt 0x10 [0x45, 0] (regsSp 0x01 0x12) noFlags).mem.read 0x11 = some (regByte 0) ∧
      (pushAddr (coreAt 0x10 [0x45, 0] (regsSp 0x01 0x12) noFlags)).toNat = 0x10 + 1) := by decide

/-- An image that ends at the last cell, and one that ends a cell later. -/
theorem witness_LoadWritesImage : State.reset.run = .idle ∧ 254 + [(1 : Byte), 2].length ≤ State.reset.mem.size ∧
    State.reset.mem.size < 255 + [(1 : Byte), 2].length := by decide

theorem witness_HostTransactionsAdmitted : State.reset.run = .idle ∧ 254 + [(1 : Byte), 2].length ≤ State.reset.mem.size ∧
    State.reset.mem.size < 255 + [(1 : Byte), 2].length ∧ addState.run ≠ .idle ∧ addState.run = .running ∧
    (State.reset.setRun .halted).run ≠ .running ∧ (State.reset.setRun .halted).run ≠ .idle := by decide

theorem witness_BootRunsFirstInstruction : (encode (.ldi 0 8) ++ [0x01]).length ≤ 256 := by decide

theorem witness_TraceEventContents : addState.run = .running ∧ addState.pc < addState.mem.size ∧
    (coreAt 256 [] (regs2 0 0) noFlags).mem.size ≤ (coreAt 256 [] (regs2 0 0) noFlags).pc ∧ State.reset.run ≠ .running := by decide

theorem witness_FaultCodes :
    (addState.faultedWith { kind := .illegalInstruction, pc := 0, opcode := some 0, detail := none }).fault =
      some { kind := .illegalInstruction, pc := 0, opcode := some 0, detail := none } ∧
    (addState.faultedWith { kind := .outOfRange, pc := 0, opcode := none, detail := some 256 }).fault =
      some { kind := .outOfRange, pc := 0, opcode := none, detail := some 256 } ∧
    (addState.faultedWith { kind := .unsupportedOperation, pc := 0, opcode := some 0, detail := none }).fault =
      some { kind := .unsupportedOperation, pc := 0, opcode := some 0, detail := none } := by decide

theorem witness_StepKeepsInvariant : addState.Inv ∧ ∃ t, step addState = .next t := ⟨by decide, ⟨_, rfl⟩⟩

theorem witness_HostKeepsInvariant : State.reset.Inv ∧ (∃ t, hostReset State.reset = .next t) ∧
    (∃ t, hostLoad [0x01] 0 State.reset = .next t) ∧ (∃ t, hostRun State.reset = .next t) ∧
    ∃ t, hostObserve State.reset = .next t :=
  ⟨by decide, ⟨_, rfl⟩, ⟨_, rfl⟩, ⟨_, rfl⟩, ⟨_, rfl⟩⟩

end Sys2Proof.Tests
end

section
/-!
SUPPORT. The decoder read backwards: an opcode byte found in the map, and bytes that decode, determine what was encoded
(R80, R81, R85, R86).
-/
namespace Sys2Proof

/-- The decoder's table and the encoder's column are the same map (R85). -/
theorem lookupOpcode_eq_some {b : Byte} {op : Op} : lookupOpcode b = some op ↔ b = opcodeByte op := by
  constructor
  · intro h
    obtain ⟨row, hfind, rfl⟩ := Option.map_eq_some_iff.mp h
    have hrows : ∀ row ∈ opcodeTable, row.1 = opcodeByte row.2 := by decide
    have hb : row.1 = b := by simpa using List.find?_some hfind
    exact hb ▸ hrows row (List.mem_of_find?_eq_some hfind)
  · rintro rfl
    cases op <;> decide

theorem takeOne_eq_some {f : Byte → Instr} {operands : List Byte} {i : Instr} (h : takeOne f operands = some i) :
    ∃ a rest, operands = a :: rest ∧ i = f a := by
  match operands, h with
  | a :: rest, h => exact ⟨a, rest, rfl, (Option.some.inj h).symm⟩

theorem takeTwo_eq_some {f : Byte → Byte → Instr} {operands : List Byte} {i : Instr}
    (h : takeTwo f operands = some i) : ∃ a b rest, operands = a :: b :: rest ∧ i = f a b := by
  match operands, h with
  | a :: b :: rest, h => exact ⟨a, b, rest, rfl, (Option.some.inj h).symm⟩

/-- An assembled instruction is of the row asked for, and its operand bytes head the bytes it was assembled from. -/
theorem assemble_eq_some {op : Op} {operands : List Byte} {i : Instr} (h : assemble op operands = some i) :
    i.op = op ∧ ∃ rest, operands = i.operands ++ rest := by
  cases op
  case hlt | ret => obtain rfl := Option.some.inj h; exact ⟨rfl, operands, rfl⟩
  case ldi | add | mul | cmp | and | or | xor =>
    obtain ⟨a, b, rest, rfl, rfl⟩ := takeTwo_eq_some h
    exact ⟨rfl, rest, rfl⟩
  all_goals
    obtain ⟨a, rest, rfl, rfl⟩ := takeOne_eq_some h
    exact ⟨rfl, rest, rfl⟩

/-- Bytes that decode to an instruction begin with its encoding. -/
theorem decode_eq_ok {bytes : List Byte} {i : Instr} (h : decode bytes = .ok i) : ∃ rest, bytes = encode i ++ rest := by
  unfold decode at h
  split at h
  · cases h
  · split at h
    · cases h
    · next op hop =>
      split at h
      · cases h
      · next j hj =>
        cases h
        obtain ⟨rfl, rest, rfl⟩ := assemble_eq_some hj
        exact ⟨rest, by rw [lookupOpcode_eq_some.mp hop]; rfl⟩

/-- An encoding is as long as the width of its row says (R80). -/
theorem length_encode (i : Instr) : (encode i).length = i.op.width := by cases i <;> rfl

namespace Machine

/-- Every latched byte lies inside the memory (R96, R97). -/
theorem fetch_bytes_fit {s : State} {f : Fetched} (h : fetch s = some f) : s.pc + f.bytes.length ≤ s.mem.size := by
  obtain ⟨hir, hA, hB⟩ := fetch_eq_some h
  have hpc := ((Memory.read_eq_some _ _ _).mp hir).1
  unfold Fetched.bytes
  split
  · simp only [List.length_cons, List.length_nil]; omega
  · next a ha =>
    have hpcA := ((Memory.read_eq_some _ _ _).mp (hA ▸ ha)).1
    split
    · simp only [List.length_cons, List.length_nil]; omega
    · next b hb =>
      have hpcB := ((Memory.read_eq_some _ _ _).mp (hB ▸ hb)).1
      simp only [List.length_cons, List.length_nil]; omega

/-- A decoded instruction lies inside the memory with all its bytes (R99). -/
theorem fetched_instr_fits {s : State} {f : Fetched} {i : Instr} (hf : fetch s = some f)
    (hi : decode f.bytes = .ok i) : s.pc + i.op.width ≤ s.mem.size := by
  obtain ⟨rest, hrest⟩ := decode_eq_ok hi
  have hfit := fetch_bytes_fit hf
  rw [hrest, List.length_append, length_encode] at hfit
  omega

/-- The byte at PC is the opcode of the decoded instruction. -/
theorem read_pc_of_decoded {s : State} {f : Fetched} {i : Instr} (hf : fetch s = some f)
    (hi : decode f.bytes = .ok i) : s.mem.read s.pc = some (opcodeByte i.op) := by
  obtain ⟨rest, hrest⟩ := decode_eq_ok hi
  obtain ⟨hir, -, -⟩ := fetch_eq_some hf
  rw [hir, (List.cons.inj hrest).1]

end Machine
end Sys2Proof
end

section
/-!
SUPPORT. What the effect of one instruction leaves in each field of the state, and everything a step that answers can do.
-/
namespace Sys2Proof.Machine

variable {i : Instr} {s t : State}

/-- The ALU advances PC by the width of its operation. -/
theorem aluApply_pc {op : Op} {a b : RegIdx} (h : aluApply op a b s = some t) : t.pc = s.pc + op.width := by
  cases op <;> cases h <;> rfl

/-- Memory after an instruction is the memory before it, or that with the byte PUSH or CALL stores at the push address (R54). -/
theorem ExecEffect.mem_cases (h : ExecEffect i s t) :
    t.mem = s.mem ∨ ((i.op = .push ∨ i.op = .call) ∧ ∃ v, s.mem.write (pushAddr s).toNat v = some t.mem) := by
  cases h with
  | alu a b _ hop ht => rcases aluApply_cases ht with ⟨v, w, -, -, rfl⟩ | ⟨-, rfl⟩ <;> exact .inl rfl
  | push a m hop hm => exact .inr ⟨.inl hop, _, hm⟩
  | call a m hop hpc hm => exact .inr ⟨.inr hop, _, hm⟩
  | jeq | jne => left; split <;> rfl
  | _ => exact .inl rfl

/-- The flags after an instruction are the flags before it, or the ones CMP computed (R32). -/
theorem ExecEffect.flags_cases (h : ExecEffect i s t) :
    t.flags = s.flags ∨ (i.op = .cmp ∧ t.flags.exactlyOne) := by
  cases h with
  | alu a b _ hop ht =>
    rcases aluApply_cases ht with ⟨v, w, -, -, rfl⟩ | ⟨hcmp, rfl⟩
    · exact .inl rfl
    · exact .inr ⟨hcmp, compareFlags_exactlyOne _ _⟩
  | jeq | jne => left; split <;> rfl
  | _ => exact .inl rfl

/-- PC after an instruction: unchanged, advanced by the width, or a byte's value (R102, R175). -/
theorem ExecEffect.pc_cases (h : ExecEffect i s t) :
    t.pc = s.pc ∨ t.pc = s.pc + i.op.width ∨ t.pc < 256 := by
  cases h with
  | fault | hlt => exact .inl rfl
  | alu a b _ hop ht => exact .inr (.inl (aluApply_pc ht))
  | ldi a v hop | push a m hop hm | pop a v hop hv | prn a hop => exact .inr (.inl (by rw [hop]; rfl))
  | call | jmp => exact .inr (.inr (BitVec.isLt _))
  | ret v hop hv => exact .inr (.inr v.isLt)
  | jeq a hop =>
    right; split
    · exact .inr (BitVec.isLt _)
    · exact .inl (by rw [hop]; rfl)
  | jne a hop =>
    right; split
    · exact .inl (by rw [hop]; rfl)
    · exact .inr (BitVec.isLt _)

/-- The run state and the record after an instruction: unchanged, Halted by HLT, or a fault taken (R35). -/
theorem ExecEffect.run_cases (h : ExecEffect i s t) :
    (t.run = s.run ∧ t.fault = s.fault) ∨ (i.op = .hlt ∧ t = s.setRun .halted) ∨
      ∃ d, t = takeFault .outOfRange (some (opcodeByte i.op)) (some d) s := by
  cases h with
  | fault d => exact .inr (.inr ⟨d, rfl⟩)
  | hlt hop => exact .inr (.inl ⟨hop, rfl⟩)
  | alu a b _ hop ht => rcases aluApply_cases ht with ⟨v, w, -, -, rfl⟩ | ⟨-, rfl⟩ <;> exact .inl ⟨rfl, rfl⟩
  | jeq | jne => left; split <;> exact ⟨rfl, rfl⟩
  | _ => exact .inl ⟨rfl, rfl⟩

/-- The output after an instruction is the output before it, or that with one value of PRN at its end (R39). -/
theorem ExecEffect.out_cases (h : ExecEffect i s t) :
    t.out = s.out ∨ (i.op = .prn ∧ ∃ v, t.out = s.out ++ [v]) := by
  cases h with
  | alu a b _ hop ht => rcases aluApply_cases ht with ⟨v, w, -, -, rfl⟩ | ⟨-, rfl⟩ <;> exact .inl rfl
  | prn a hop => exact .inr ⟨hop, _, rfl⟩
  | jeq | jne => left; split <;> rfl
  | _ => exact .inl rfl

/-- The record of a fault taken at `s`. -/
def faultRecordAt (k : FaultKind) (o : Option Byte) (d : Option Nat) (s : State) : FaultRecord :=
  { kind := k, pc := s.pc, opcode := o, detail := d }

/-- What the decoder raises is a fault taken with a sound record. -/
theorem raiseDecode_cases {f : Fetched} {e : DecodeError} (he : decode f.bytes = .error e)
    (h : raiseDecode f.ir e s = .next t) : ∃ k o d, t = takeFault k o d s ∧ (faultRecordAt k o d s).wf := by
  rcases decode_bytes_error he with rfl | rfl <;> cases h
  · exact ⟨_, _, _, rfl, .inr ⟨rfl, by simp [faultRecordAt], rfl⟩⟩
  · exact ⟨_, _, _, rfl, .inl ⟨rfl, by simp [faultRecordAt]⟩⟩

/-- Everything a step that answers `t` can do: nothing outside Running; a fault of the fetch or of the decoder taken, with a sound
record; or an effect of the decoded instruction. -/
theorem step_next_cases (h : step s = .next t) :
    (s.run ≠ .running ∧ t = s) ∨
    (s.run = .running ∧ ∃ k o d, t = takeFault k o d s ∧ (faultRecordAt k o d s).wf) ∨
    (s.run = .running ∧ ∃ f i, fetch s = some f ∧ decode f.bytes = .ok i ∧ ExecEffect i s t) := by
  rcases step_cases h with ⟨hr, ht⟩ | ⟨hr, -, ht⟩ | ⟨f, e, hr, -, he, ht⟩ | ⟨f, i, hr, hf, hi, ht⟩
  · cases ht; exact .inl ⟨hr, rfl⟩
  · cases ht; exact .inr (.inl ⟨hr, _, _, _, rfl, .inl ⟨rfl, by simp [faultRecordAt]⟩⟩)
  · exact .inr (.inl ⟨hr, raiseDecode_cases he ht.symm⟩)
  · exact .inr (.inr ⟨hr, f, i, hf, hi, effect_of_exec ht⟩)

end Sys2Proof.Machine
end

section
/-!
The invariant of the core is kept by every step: by a fault taken, and by every effect of a fetched instruction.
-/
namespace Sys2Proof.Machine

variable {i : Instr} {s t : State}

/-- Taking a fault with a sound record keeps the invariant, whatever the run state was. -/
theorem inv_takeFault {k : FaultKind} {o : Option Byte} {d : Option Nat} (hs : s.Inv)
    (hr : (faultRecordAt k o d s).wf) : (takeFault k o d s).Inv := by
  obtain ⟨hmem, hsize, hpc, hflags, -⟩ := hs
  refine ⟨hmem, hsize, hpc, hflags, by simp, fun r hmemr => ?_⟩
  obtain rfl := Option.some.inj hmemr
  exact ⟨rfl, hr⟩

/-- An instruction keeps the canonical memory and its number of cells. -/
theorem ExecEffect.mem_sound (h : ExecEffect i s t) (hw : s.mem.wf) : t.mem.wf ∧ t.mem.size = s.mem.size := by
  rcases h.mem_cases with hm | ⟨-, v, hm⟩
  · rw [hm]; exact ⟨hw, rfl⟩
  · exact ⟨Memory.wf_write hm hw, Memory.write_size hm⟩

/-- An instruction of a running core keeps the fault record sound: nothing but a fault taken records one. -/
theorem ExecEffect.faultSound (h : ExecEffect i s t) (hrun : s.run = .running) (hs : s.faultSound) : t.faultSound := by
  obtain ⟨hiff, -⟩ := hs
  have hnone : s.fault = none := by simpa [hrun] using hiff
  rcases h.run_cases with ⟨htr, htf⟩ | ⟨-, rfl⟩ | ⟨d, rfl⟩
  · simp [State.faultSound, htr, htf, hrun, hnone]
  · simp [State.faultSound, hnone]
  · simp [State.faultSound, FaultRecord.wf]

/-- An instruction whose bytes lie inside the memory keeps the invariant of a running core. -/
theorem ExecEffect.inv (h : ExecEffect i s t) (hrun : s.run = .running) (hfit : s.pc + i.op.width ≤ s.mem.size)
    (hs : s.Inv) : t.Inv := by
  obtain ⟨hmem, hsize, hpc, hflags, hfault⟩ := hs
  obtain ⟨htmem, htsize⟩ := h.mem_sound hmem
  have htpc : t.pc ≤ 256 := by rcases h.pc_cases with hp | hp | hp <;> omega
  have htflags : t.flags.atMostOne := by
    rcases h.flags_cases with hf | ⟨-, -, hf⟩
    · exact hf ▸ hflags
    · exact hf
  exact ⟨htmem, htsize ▸ hsize, htpc, htflags, h.faultSound hrun hfault⟩

/-- Settles O56. That PC stays at most 256 rests on the operand check: an instruction that advances PC lies inside the memory. -/
theorem stepKeepsInvariant : Obligations.StepKeepsInvariant := by
  intro s t hs h
  rcases step_next_cases h with ⟨-, rfl⟩ | ⟨-, k, o, d, rfl, hr⟩ | ⟨hrun, f, i, hf, hi, he⟩
  · exact hs
  · exact inv_takeFault hs hr
  · exact he.inv hrun (fetched_instr_fits hf hi) hs

end Sys2Proof.Machine
end

section
/-!
The flags (R32, R33) and the output stream (R39). That no instruction reads the output, and only JEQ and JNE a flag (EQ), is one
simulation: `State.perturb` puts other flags and an earlier output into a state, and every instruction runs alike from there.
-/
namespace Sys2Proof.Machine

/-- A byte that passes the check of a register field is the byte of a register (R83). -/
theorem eq_regByte_of_namesRegister {b : Byte} (h : namesRegister b = true) : ∃ r, b = regByte r := by
  have hlt : b.toNat < 8 := of_decide_eq_true h
  exact ⟨⟨b.toNat, hlt⟩, (regIndex_eq_some b _).mp (dif_pos hlt)⟩

/-- CMP of two registers leaves the flags of their comparison (R127). -/
theorem exec_cmp_regByte (a b : RegIdx) (s : State) : exec (.cmp (regByte a) (regByte b)) s =
    .next ((s.setFlags (compareFlags (s.reg a) (s.reg b))).advance 3) :=
  withRegs_regByte _ _ _ _ _

/-- A well-formed CMP compares two registers. -/
theorem cmp_wellFormed {i : Instr} (hop : i.op = .cmp) (hw : i.wellFormed = true) :
    ∃ a b, i = .cmp (regByte a) (regByte b) := by
  cases i <;> cases hop
  next ra rb =>
    obtain ⟨ha, hb⟩ : namesRegister ra = true ∧ namesRegister rb = true := by
      simpa [Instr.wellFormed, Instr.regFields] using hw
    obtain ⟨a, rfl⟩ := eq_regByte_of_namesRegister ha
    obtain ⟨b, rfl⟩ := eq_regByte_of_namesRegister hb
    exact ⟨a, b, rfl⟩

/-- Settles O37, from the effects of an instruction and the flags CMP computes. -/
theorem onlyCmpWritesFlags : Obligations.OnlyCmpWritesFlags := by
  intro i s t h
  constructor
  · intro hop
    exact (effect_of_exec h).flags_cases.resolve_right (fun hc => hop hc.1)
  · intro hop hw
    obtain ⟨a, b, rfl⟩ := cmp_wellFormed hop hw
    rw [exec_cmp_regByte] at h
    cases h
    exact compareFlags_exactlyOne _ _

/-- The state with its flags changed by `φ`, and with `o` put before its output. -/
def State.perturb (φ : Flags → Flags) (o : List Byte) (s : State) : State :=
  { s with flags := φ s.flags, out := o ++ s.out }

/-- `q` answers as `p` does, but for the earlier output `o` and for the flags: changed by `φ` still, or written anew and so the
same. -/
def Simulates (φ : Flags → Flags) (o : List Byte) (p q : Result) : Prop :=
  ∃ t ψ, (ψ = φ ∨ ψ = id) ∧ p = .next t ∧ q = .next (t.perturb ψ o)

section
variable {φ : Flags → Flags} {o : List Byte} {s : State}

/-! What the operations do to a perturbed state. -/

@[simp] theorem State.perturb_reg (a : RegIdx) : (s.perturb φ o).reg a = s.reg a := rfl
@[simp] theorem State.perturb_sp : (s.perturb φ o).sp = s.sp := rfl
@[simp] theorem State.perturb_pc : (s.perturb φ o).pc = s.pc := rfl
@[simp] theorem decSp_perturb : decSp (s.perturb φ o) = (decSp s).perturb φ o := rfl
@[simp] theorem loadAtSp_perturb : loadAtSp (s.perturb φ o) = loadAtSp s := rfl

@[simp] theorem storeAtSp_perturb (v : Byte) :
    storeAtSp (s.perturb φ o) v = (storeAtSp s v).map (State.perturb φ o) := by
  have hw : (s.perturb φ o).mem.write (s.perturb φ o).sp.toNat v = s.mem.write s.sp.toNat v := rfl
  unfold storeAtSp
  rw [hw]
  cases s.mem.write s.sp.toNat v <;> rfl

/-! What answers alike. -/

/-- A next state that keeps the perturbation. -/
theorem Simulates.next (t : State) : Simulates φ o (.next t) (.next (t.perturb φ o)) := ⟨t, φ, .inl rfl, rfl, rfl⟩

theorem simulates_raiseOutOfRange (op : Op) (d : Nat) :
    Simulates φ o (raiseOutOfRange op d s) (raiseOutOfRange op d (s.perturb φ o)) := .next _

theorem simulates_withReg (op : Op) (ra : Byte) {rule rule' : RegIdx → Result}
    (h : ∀ a, Simulates φ o (rule a) (rule' a)) :
    Simulates φ o (withReg op ra s rule) (withReg op ra (s.perturb φ o) rule') := by
  unfold withReg
  cases regIndex ra with
  | none => exact simulates_raiseOutOfRange op _
  | some a => exact h a

/-- CMP writes the flags anew; every other operation of the ALU keeps the perturbation. -/
theorem simulates_aluDispatch (op : Op) (a b : RegIdx) :
    Simulates φ o (aluDispatch op a b s) (aluDispatch op a b (s.perturb φ o)) := by
  cases op
  case cmp => exact ⟨_, id, .inr rfl, rfl, rfl⟩
  all_goals exact .next _

theorem simulates_aluTwo (op : Op) (ra rb : Byte) :
    Simulates φ o (aluTwo op ra rb s) (aluTwo op ra rb (s.perturb φ o)) :=
  simulates_withReg op ra fun a => simulates_withReg op rb fun b => simulates_aluDispatch op a b

theorem simulates_execPush (ra : Byte) : Simulates φ o (execPush ra s) (execPush ra (s.perturb φ o)) := by
  refine simulates_withReg .push ra fun a => ?_
  simp only [decSp_perturb, State.perturb_reg, State.perturb_sp, storeAtSp_perturb]
  cases storeAtSp (decSp s) ((decSp s).reg a) with
  | none => exact simulates_raiseOutOfRange _ _
  | some u => exact .next _

theorem simulates_execPop (ra : Byte) : Simulates φ o (execPop ra s) (execPop ra (s.perturb φ o)) := by
  refine simulates_withReg .pop ra fun a => ?_
  simp only [loadAtSp_perturb]
  cases loadAtSp s with
  | none => exact simulates_raiseOutOfRange _ _
  | some v => exact .next _

theorem simulates_execCall (ra : Byte) : Simulates φ o (execCall ra s) (execCall ra (s.perturb φ o)) := by
  refine simulates_withReg .call ra fun a => ?_
  simp only [decSp_perturb, State.perturb_pc, State.perturb_sp, storeAtSp_perturb]
  split
  · exact simulates_raiseOutOfRange _ _
  · cases storeAtSp (decSp s) (mask8 (s.pc + 2)) with
    | none => exact simulates_raiseOutOfRange _ _
    | some u => exact .next _

theorem simulates_execRet : Simulates φ o (execRet s) (execRet (s.perturb φ o)) := by
  simp only [execRet, loadAtSp_perturb]
  cases loadAtSp s with
  | none => exact simulates_raiseOutOfRange _ _
  | some v => exact .next _

/-- PRN appends to the whole output, so what is put before it stays before it. -/
theorem simulates_execPrn (ra : Byte) : Simulates φ o (execPrn ra s) (execPrn ra (s.perturb φ o)) := by
  refine simulates_withReg .prn ra fun a => ⟨_, φ, .inl rfl, rfl, ?_⟩
  simp [State.perturb, State.emit, State.advance, State.setPc, State.reg]

/-- JEQ decides alike where EQ is the same. -/
theorem simulates_execJeq (ra : Byte) (heq : (φ s.flags).eq = s.flags.eq) :
    Simulates φ o (execJeq ra s) (execJeq ra (s.perturb φ o)) := by
  refine simulates_withReg .jeq ra fun a => ?_
  rw [show (s.perturb φ o).flags.eq = s.flags.eq from heq]
  split <;> exact .next _

/-- JNE decides alike where EQ is the same. -/
theorem simulates_execJne (ra : Byte) (heq : (φ s.flags).eq = s.flags.eq) :
    Simulates φ o (execJne ra s) (execJne ra (s.perturb φ o)) := by
  refine simulates_withReg .jne ra fun a => ?_
  rw [show (s.perturb φ o).flags.eq = s.flags.eq from heq]
  split <;> exact .next _

/-- The simulation: an instruction runs alike from a perturbed state, if it is no JEQ or JNE or EQ is the same (R33, R39). -/
theorem exec_perturb (i : Instr) (heq : (φ s.flags).eq = s.flags.eq ∨ (i.op ≠ .jeq ∧ i.op ≠ .jne)) :
    Simulates φ o (exec i s) (exec i (s.perturb φ o)) := by
  cases i with
  | hlt => exact .next _
  | ret => exact simulates_execRet
  | push ra => exact simulates_execPush ra
  | pop ra => exact simulates_execPop ra
  | prn ra => exact simulates_execPrn ra
  | call ra => exact simulates_execCall ra
  | jmp ra => exact simulates_withReg .jmp ra fun a => .next _
  | jeq ra => exact simulates_execJeq ra (heq.resolve_right fun h => h.1 rfl)
  | jne ra => exact simulates_execJne ra (heq.resolve_right fun h => h.2 rfl)
  | not ra => exact simulates_withReg .not ra fun a => simulates_aluDispatch .not a a
  | ldi ra imm => exact simulates_withReg .ldi ra fun a => .next _
  | add ra rb | mul ra rb | cmp ra rb | and ra rb | or ra rb | xor ra rb => exact simulates_aluTwo _ ra rb

end

/-- Settles O38: the simulation, with other flags put in place of the old and no output before. -/
theorem flagsReadOnlyByJumps : Obligations.FlagsReadOnlyByJumps := by
  intro i s t u f ht hu heq
  obtain ⟨t', ψ, -, ht', hu'⟩ := exec_perturb (φ := fun _ => f) (o := []) i heq
  cases ht.symm.trans ht'
  cases hu.symm.trans hu'
  rfl

/-- With an earlier output before its own, a state runs alike and the earlier output stays (R39). -/
theorem exec_prepend_out {i : Instr} {s t : State} (h : exec i s = .next t) (o : List Byte) :
    exec i { s with out := o ++ s.out } = .next { t with out := o ++ t.out } := by
  obtain ⟨t', ψ, hψ, ht, hrun⟩ := exec_perturb (φ := id) (o := o) (s := s) i (.inl rfl)
  obtain rfl : ψ = id := or_self_iff.mp hψ
  cases h.symm.trans ht
  exact hrun

/-- Settles O40. The instruction's own output is what it emits where nothing was emitted before; any stream, the old one among
them, can be put before it. -/
theorem outputStreamAppendOnly : Obligations.OutputStreamAppendOnly := by
  refine ⟨rfl, fun i s t h => ?_⟩
  obtain ⟨e, he, heff⟩ := exec_effect i { s with out := [] }
  have hput (o : List Byte) : exec i { s with out := o } = .next { e with out := o ++ e.out } := by
    simpa using exec_prepend_out he o
  obtain rfl : t = { e with out := s.out ++ e.out } := Host.Outcome.next.inj (h.symm.trans (hput s.out))
  refine ⟨e.out, rfl, fun hop => heff.out_cases.resolve_right fun hprn => hop hprn.1, ?_, hput⟩
  rcases heff.out_cases with hout | ⟨-, v, hout⟩ <;> simp [hout]

end Sys2Proof.Machine
end

section
/-!
The run state (R35, R36): what a step and the host may change it from and to.
-/
namespace Sys2Proof.Machine

/-- Settles O41. -/
theorem runStateChanges : Obligations.RunStateChanges := by
  intro s t h hne
  rcases step_next_cases h with ⟨-, rfl⟩ | ⟨hrun, k, o, d, rfl, -⟩ | ⟨hrun, f, i, hf, hi, he⟩
  · exact absurd rfl hne
  · exact ⟨hrun, .inr ⟨rfl, _, rfl, rfl⟩⟩
  · refine ⟨hrun, ?_⟩
    rcases he.run_cases with ⟨hsame, -⟩ | ⟨hop, rfl⟩ | ⟨d, rfl⟩
    · exact absurd hsame hne
    · exact .inl ⟨rfl, by rw [read_pc_of_decoded hf hi, hop]; rfl⟩
    · exact .inr ⟨rfl, _, rfl, rfl⟩

/-- Outside Running a step that answers leaves the state as it was (R95). -/
theorem step_next_eq_of_ne_running {s t : State} (hs : s.run ≠ .running) (h : step s = .next t) : t = s := by
  rcases step_next_cases h with ⟨-, ht⟩ | ⟨hrun, -⟩ | ⟨hrun, -⟩
  · exact ht
  · exact absurd hrun hs
  · exact absurd hrun hs

/-- Outside Idle the host's `run` is refused (R36). -/
theorem hostRun_of_ne_idle {s : State} (h : s.run ≠ .idle) : hostRun s = .refused (.notIdle s.run) := by
  unfold hostRun
  split <;> simp_all

/-- Outside Idle the host's `load` is refused, whatever the image (R68). -/
theorem hostLoad_of_ne_idle {s : State} (bytes : List Byte) (base : Nat) (h : s.run ≠ .idle) :
    hostLoad bytes base s = .refused (.notIdle s.run) := by
  unfold hostLoad
  split <;> simp_all

/-- In Idle an image that does not fit is refused (R67). -/
theorem hostLoad_of_not_fit {s : State} {bytes : List Byte} {base : Nat} (h : s.run = .idle)
    (hfit : s.mem.size < base + bytes.length) : hostLoad bytes base s = .refused .loadOutOfRange := by
  simp [hostLoad, h, hfit]

/-- In Idle an image that fits is stored (R67). -/
theorem hostLoad_of_fit {s : State} {bytes : List Byte} {base : Nat} (h : s.run = .idle)
    (hfit : base + bytes.length ≤ s.mem.size) :
    hostLoad bytes base s = .next (s.setMem (s.mem.storeBytes base bytes)) := by
  simp [hostLoad, h, Nat.not_lt.mpr hfit]

/-- In Idle the host's `run` starts the core (R36). -/
theorem hostRun_of_idle {s : State} (h : s.run = .idle) : hostRun s = .next (s.setRun .running) := by
  simp [hostRun, h]

/-- Outside Running the host observes the state (R245). -/
theorem hostObserve_of_ne_running {s : State} (h : s.run ≠ .running) : hostObserve s = .next s := by
  unfold hostObserve
  split <;> simp_all

/-- While Running the host's `observe` is refused (R245). -/
theorem hostObserve_of_running {s : State} (h : s.run = .running) : hostObserve s = .refused .observeWhileRunning := by
  simp [hostObserve, h]

/-- A run that has ended is neither Idle nor Running. -/
theorem State.ended.run_ne {s : State} (h : s.ended) : s.run ≠ .idle ∧ s.run ≠ .running := by
  rcases h with h | h <;> simp [h]

/-- Settles O42. -/
theorem terminalUntilReset : Obligations.TerminalUntilReset := by
  intro s hs
  obtain ⟨hidle, hrunning⟩ := hs.run_ne
  exact ⟨fun u hu => step_next_eq_of_ne_running hrunning hu, hostRun_of_ne_idle hidle,
    fun bytes base => hostLoad_of_ne_idle bytes base hidle, _, rfl, rfl⟩

/-- Settles O52, each clause by the lemma about its transaction in that run state. -/
theorem hostTransactionsAdmitted : Obligations.HostTransactionsAdmitted :=
  ⟨fun _ _ _ => hostLoad_of_not_fit, fun _ _ _ h hfit => ⟨_, hostLoad_of_fit h hfit, h⟩,
    fun _ bytes base => hostLoad_of_ne_idle bytes base, fun _ => hostRun_of_idle, fun _ => hostRun_of_ne_idle,
    fun _ => hostObserve_of_ne_running, fun _ => hostObserve_of_running⟩

end Sys2Proof.Machine
end

section
/-!
The state right after reset (R41 to R46), for a memory of any number of cells.
-/
namespace Sys2Proof.Machine

/-- SP resets to 0xF4 and every other register to 0x00 (R42, R43). -/
theorem State.resetWith_reg (n : Nat) (r : RegIdx) : (State.resetWith n).reg r = if r = 7 then 0xF4 else 0 := by
  fin_cases r <;> rfl

/-- Every cell resets to 0x00 (R45). -/
theorem State.resetWith_read {n a : Nat} (h : a < n) : (State.resetWith n).mem.read a = some 0 :=
  (Memory.read_eq_some _ _ _).mpr ⟨h, rfl⟩

/-- Settles O6. -/
theorem resetStackPointerAndMemory : Obligations.ResetStackPointerAndMemory :=
  ⟨State.resetWith_reg _ 7, rfl, fun _ => State.resetWith_read⟩

/-- Settles O7. -/
theorem resetDecidedValues : Obligations.ResetDecidedValues :=
  ⟨rfl, fun r hr => (State.resetWith_reg _ r).trans (if_neg hr), rfl, rfl, rfl, rfl⟩

end Sys2Proof.Machine
end

section
/-!
Memory as data (R45, R50, R51, R52, R67): what a read, a write and the host's load leave in each cell, and that the canonical
form lists exactly the cells that do not read 0x00, so that the reads determine it.
-/
namespace Sys2Proof.Machine

/-! Reads and writes. -/

/-- A read inside the array answers (R51). -/
theorem Memory.read_of_lt {m : Memory} {a : Nat} (h : a < m.size) : ∃ v, m.read a = some v :=
  ⟨_, (Memory.read_eq_some m a _).mpr ⟨h, rfl⟩⟩

/-- A write inside the array answers (R52). -/
theorem Memory.write_of_lt {m : Memory} {a : Nat} (v : Byte) (h : a < m.size) : ∃ m', m.write a v = some m' :=
  ⟨_, (Memory.write_eq_some m _ a v).mpr ⟨h, rfl⟩⟩

/-- The byte written is the byte read. -/
theorem Memory.read_write_self {m m' : Memory} {a : Nat} {v : Byte} (h : m.write a v = some m') : m'.read a = some v := by
  rw [Memory.read_write h, if_pos rfl]

/-- No other byte is changed by a write. -/
theorem Memory.read_write_ne {m m' : Memory} {a b : Nat} {v : Byte} (h : m.write a v = some m') (hb : b ≠ a) :
    m'.read b = m.read b := by
  rw [Memory.read_write h, if_neg hb]

/-- Settles O4. -/
theorem memoryReadAndWrite : Obligations.MemoryReadAndWrite := by
  intro m a v
  refine ⟨Memory.read_eq_none m a, Memory.write_eq_none m a v, fun ha => ?_⟩
  obtain ⟨m', hm'⟩ := Memory.write_of_lt v ha
  exact ⟨m', hm', Memory.write_size hm', Memory.read_write_self hm', fun _ => Memory.read_write_ne hm'⟩

/-! The canonical form. -/

/-- Among cells at rising addresses, the listed ones are those that read as they are listed. A cell that holds 0x00 is left out:
what is unlisted reads so too. -/
theorem cellsGet_eq_iff_mem {cells : List Host.Cell} (hs : cells.Pairwise (fun c d => c.1 < d.1)) {c : Host.Cell}
    (hc : c.2 ≠ 0) : cellsGet cells c.1 = c.2 ↔ c ∈ cells := by
  induction cells with
  | nil => simpa [cellsGet] using hc.symm
  | cons d rest ih =>
    obtain ⟨hd, hrest⟩ := List.pairwise_cons.mp hs
    by_cases hdc : d.1 = c.1
    · have hnot : c ∉ rest := fun hm => (hd c hm).ne hdc
      simp [cellsGet, hdc, hnot, Prod.ext_iff, eq_comm]
    · have hne : c ≠ d := fun h => hdc (h ▸ rfl)
      simp [cellsGet, hdc, hne, ih hrest]

/-- A canonical memory lists exactly the cells that do not read 0x00. -/
theorem Memory.wf.mem_cells_iff {m : Memory} (hw : m.wf) (c : Host.Cell) :
    c ∈ m.cells ↔ c.2 ≠ 0 ∧ m.read c.1 = some c.2 := by
  obtain ⟨hs, hcells⟩ := hw
  rw [Memory.read_eq_some]
  constructor
  · intro hc
    obtain ⟨hne, hlt⟩ := hcells c hc
    exact ⟨hne, hlt, (cellsGet_eq_iff_mem hs hne).mpr hc⟩
  · rintro ⟨hne, -, hget⟩
    exact (cellsGet_eq_iff_mem hs hne).mp hget

/-- Settles O5: both memories list the same cells, and lists at rising addresses with the same members are the same. -/
theorem canonicalMemoryUnique : Obligations.CanonicalMemoryUnique := by
  rintro ⟨n, cells⟩ ⟨n', cells'⟩ hw hw' hsize hread
  obtain rfl : n = n' := hsize
  have : Std.Irrefl (fun c d : Host.Cell => c.1 < d.1) := ⟨fun _ => Nat.lt_irrefl _⟩
  have hmem (c : Host.Cell) : c ∈ cells ↔ c ∈ cells' := by
    rw [hw.mem_cells_iff c, hw'.mem_cells_iff c, hread]
  obtain ⟨hs, -⟩ := hw
  obtain ⟨hs', -⟩ := hw'
  exact congrArg (Memory.mk n) (hs.eq_of_mem_iff hs' hmem)

/-! The host's load. -/

/-- The load port's loop leaves the image's bytes from the base on (R67). -/
theorem Memory.read_storeBytes_inside {m : Memory} {base : Nat} {bytes : List Byte}
    (hfit : base + bytes.length ≤ m.size) {k : Nat} {b : Byte} (hb : bytes[k]? = some b) :
    (m.storeBytes base bytes).read (base + k) = some b := by
  obtain ⟨hk, -⟩ := List.getElem?_eq_some_iff.mp hb
  rw [Memory.read_eq_some, Memory.size_storeBytes, cellsGet_storeBytes, if_pos (by omega)]
  exact ⟨by omega, by simp [hb]⟩

/-- The load port's loop changes no cell outside the image (R67). -/
theorem Memory.read_storeBytes_outside (m : Memory) {base : Nat} {bytes : List Byte} {a : Nat}
    (ha : a < base ∨ base + bytes.length ≤ a) : (m.storeBytes base bytes).read a = m.read a := by
  have hout : ¬(base ≤ a ∧ a < base + bytes.length) := by omega
  unfold Memory.read
  rw [Memory.size_storeBytes, cellsGet_storeBytes, if_neg hout]

/-- Settles O51. -/
theorem loadWritesImage : Obligations.LoadWritesImage := by
  intro s bytes base hidle
  refine ⟨hostLoad_of_not_fit hidle, fun hfit => ⟨_, hostLoad_of_fit hidle hfit, ?_⟩⟩
  exact ⟨fun k b => Memory.read_storeBytes_inside hfit, fun a => Memory.read_storeBytes_outside s.mem,
    Memory.size_storeBytes _ _ _, fun _ _ => rfl, rfl, rfl, rfl, rfl, rfl⟩

end Sys2Proof.Machine
end

section
/-!
What instructions do to memory (R50, R53, R54, R65): who writes it, that its size stays, when an access of the stack fits, and
that a byte pushed over the code is fetched.
-/
namespace Sys2Proof.Machine

variable {i : Instr} {s : State}

/-! Who writes memory. -/

/-- Settles O39, from what an instruction's effect leaves in memory. -/
theorem onlyPushAndCallWriteMemory : Obligations.OnlyPushAndCallWriteMemory := by
  intro i s t h
  rcases (effect_of_exec h).mem_cases with hm | ⟨hop, v, hw⟩
  · have hsame : s.memSame t := ⟨congrArg Memory.size hm, fun a => congrArg (Memory.read · a) hm⟩
    exact ⟨fun _ _ => hsame, hsame.1, fun a _ => hsame.2 a⟩
  · exact ⟨fun hpush hcall => absurd hop (not_or.mpr ⟨hpush, hcall⟩), Memory.write_size hw, fun _ => Memory.read_write_ne hw⟩

/-- No instruction changes the number of cells (R50). -/
theorem ExecEffect.mem_size {t : State} (h : ExecEffect i s t) : t.mem.size = s.mem.size := by
  rcases h.mem_cases with hm | ⟨-, v, hm⟩
  · rw [hm]
  · exact Memory.write_size hm

/-- Settles O45. -/
theorem stepKeepsMemorySize : Obligations.StepKeepsMemorySize := by
  intro s t h
  rcases step_next_cases h with ⟨-, rfl⟩ | ⟨-, k, o, d, rfl, -⟩ | ⟨-, f, i, -, -, he⟩
  · rfl
  · rfl
  · exact he.mem_size

/-! The instructions of the stack, where the access is inside the memory. -/

/-- A push inside the memory writes its byte at the push address (R153). -/
theorem storeAtSp_decSp_of_lt (v : Byte) (h : (pushAddr s).toNat < s.mem.size) :
    ∃ m, s.mem.write (pushAddr s).toNat v = some m ∧ storeAtSp (decSp s) v = some ((decSp s).setMem m) := by
  obtain ⟨m, hm⟩ := Memory.write_of_lt v h
  have hwrite : (decSp s).mem.write (decSp s).sp.toNat v = some m := by rw [decSp_sp]; exact hm
  exact ⟨m, hm, by simp [storeAtSp, hwrite]⟩

/-- PUSH to an address inside the memory (R151). -/
theorem exec_push_of_lt (a : RegIdx) (h : (pushAddr s).toNat < s.mem.size) :
    ∃ m, s.mem.write (pushAddr s).toNat ((decSp s).reg a) = some m ∧
      exec (.push (regByte a)) s = .next (((decSp s).setMem m).advance 2) := by
  obtain ⟨m, hm, hstore⟩ := storeAtSp_decSp_of_lt ((decSp s).reg a) h
  exact ⟨m, hm, by simp [exec, execPush, hstore]⟩

/-- CALL with a return address that is a byte and a push inside the memory (R170). -/
theorem exec_call_of_lt (a : RegIdx) (hpc : s.pc + 2 ≤ 255) (h : (pushAddr s).toNat < s.mem.size) :
    ∃ m, s.mem.write (pushAddr s).toNat (mask8 (s.pc + 2)) = some m ∧
      exec (.call (regByte a)) s = .next (jumpTo a ((decSp s).setMem m)) := by
  obtain ⟨m, hm, hstore⟩ := storeAtSp_decSp_of_lt (mask8 (s.pc + 2)) h
  exact ⟨m, hm, by simp [exec, execCall, Config.maxReturnAddress, Nat.not_lt.mpr hpc, hstore]⟩

/-- POP from an SP inside the memory (R152). -/
theorem exec_pop_of_lt (a : RegIdx) (h : s.sp.toNat < s.mem.size) :
    ∃ v, s.mem.read s.sp.toNat = some v ∧
      exec (.pop (regByte a)) s = .next ((incSp (s.setReg a v)).advance 2) := by
  obtain ⟨v, hv⟩ := Memory.read_of_lt h
  exact ⟨v, hv, by simp [exec, execPop, loadAtSp, hv]⟩

/-- RET with an SP inside the memory (R171). -/
theorem exec_ret_of_lt (h : s.sp.toNat < s.mem.size) :
    ∃ v, s.mem.read s.sp.toNat = some v ∧ exec .ret s = .next (incSp (s.setPc v.toNat)) := by
  obtain ⟨v, hv⟩ := Memory.read_of_lt h
  exact ⟨v, hv, by simp [exec, execRet, loadAtSp, hv]⟩

/-- A register field of a well-formed instruction is the byte of a register. -/
theorem eq_regByte_of_wellFormed (hw : i.wellFormed = true) {b : Byte} (hb : b ∈ i.regFields) : ∃ r, b = regByte r :=
  eq_regByte_of_namesRegister (List.all_eq_true.mp hw b hb)

/-- Settles O44: 256 cells are as many as an SP can name, so only a register field or CALL's return address could fault. -/
theorem stackAccessFitsAt256 : Obligations.StackAccessFitsAt256 := by
  intro s i hsize hw hcall
  have hfit (b : Byte) : b.toNat < s.mem.size := hsize ▸ b.isLt
  have hreg (b : Byte) := eq_regByte_of_wellFormed (b := b) hw
  cases i with
  | hlt => exact ⟨_, rfl, rfl⟩
  | ret =>
    obtain ⟨v, -, h⟩ := exec_ret_of_lt (hfit s.sp)
    exact ⟨_, h, rfl⟩
  | push ra =>
    obtain ⟨a, rfl⟩ := hreg ra (.head _)
    obtain ⟨m, -, h⟩ := exec_push_of_lt a (hfit (pushAddr s))
    exact ⟨_, h, rfl⟩
  | pop ra =>
    obtain ⟨a, rfl⟩ := hreg ra (.head _)
    obtain ⟨v, -, h⟩ := exec_pop_of_lt a (hfit s.sp)
    exact ⟨_, h, rfl⟩
  | call ra =>
    obtain ⟨a, rfl⟩ := hreg ra (.head _)
    obtain ⟨m, -, h⟩ := exec_call_of_lt a (hcall rfl) (hfit (pushAddr s))
    exact ⟨_, h, rfl⟩
  | jeq ra | jne ra =>
    obtain ⟨a, rfl⟩ := hreg ra (.head _)
    exact ⟨_, withReg_regByte _ _ _ _, by split <;> rfl⟩
  | prn ra | jmp ra | not ra | ldi ra =>
    obtain ⟨a, rfl⟩ := hreg ra (.head _)
    exact ⟨_, withReg_regByte _ _ _ _, rfl⟩
  | add ra rb | mul ra rb | cmp ra rb | and ra rb | or ra rb | xor ra rb =>
    obtain ⟨a, rfl⟩ := hreg ra (.head _)
    obtain ⟨b, rfl⟩ := hreg rb (.tail _ (.head _))
    exact ⟨_, withRegs_regByte _ _ _ _ _, rfl⟩

/-! A PUSH at PC (R65). -/

/-- The fetch at a PC inside the memory. -/
theorem fetch_of_read {ir : Byte} (h : s.mem.read s.pc = some ir) :
    fetch s = some { ir := ir, opA := s.mem.read (s.pc + 1), opB := s.mem.read (s.pc + 2) } := by
  simp [fetch, h]

/-- A running core executes the instruction its latched bytes decode to (R104). -/
theorem step_of_decoded {f : Fetched} (hrun : s.run = .running) (hf : fetch s = some f)
    (hi : decode f.bytes = .ok i) : step s = exec i s := by
  simp [step, hrun, hf, hi]

/-- A PUSH byte and its operand byte decode, whatever is latched after them. -/
theorem decode_push_bytes (ra : Byte) (opB : Option Byte) :
    decode (Fetched.bytes { ir := 0x45, opA := some ra, opB := opB }) = .ok (.push ra) := by
  cases opB <;> rfl

/-- A running core with the bytes of a PUSH at PC executes it. -/
theorem step_push {ra : Byte} (hrun : s.run = .running) (hir : s.mem.read s.pc = some 0x45)
    (hra : s.mem.read (s.pc + 1) = some ra) : step s = exec (.push ra) s :=
  step_of_decoded hrun (fetch_of_read hir) (by rw [hra]; exact decode_push_bytes ra _)

/-- A PUSH at PC of a register other than SP, to an address inside the memory, stores the register there and goes on. -/
theorem step_push_of_lt {a : RegIdx} (hrun : s.run = .running) (ha : a ≠ 7) (hir : s.mem.read s.pc = some 0x45)
    (hra : s.mem.read (s.pc + 1) = some (regByte a)) (hlt : (pushAddr s).toNat < s.mem.size) :
    ∃ t, step s = .next t ∧ t.mem.read (pushAddr s).toNat = some (s.reg a) ∧ t.reg 7 = pushAddr s ∧ t.pc = s.pc + 2 := by
  obtain ⟨m, hm, hexec⟩ := exec_push_of_lt a hlt
  rw [decSp_eq, State.reg_setReg_ne s 7 a _ ha] at hm
  exact ⟨_, (step_push hrun hir hra).trans hexec, Memory.read_write_self hm, decSp_sp s, rfl⟩

/-- Settles O50. -/
theorem pushedByteIsFetchedNext : Obligations.PushedByteIsFetchedNext := by
  intro s a hrun ha hir hra
  constructor
  · intro haddr hlt
    obtain ⟨t, hstep, hread, -, hpc⟩ := step_push_of_lt hrun ha hir hra (haddr ▸ hlt)
    exact ⟨t, _, hstep, fetch_of_read (by rw [hpc, ← haddr]; exact hread), hpc, rfl⟩
  · intro haddr
    have hlt : s.pc + 1 < s.mem.size := ((Memory.read_eq_some _ _ _).mp hra).1
    obtain ⟨t, hstep, hread, hsp, hpc⟩ := step_push_of_lt hrun ha hir hra (haddr ▸ hlt)
    exact ⟨t, hstep, haddr ▸ hread, hsp, hpc⟩

end Sys2Proof.Machine
end

section
/-!
The decoder read forwards (R80, R81, R85, R86, R87): the encoding of an instruction decodes to it, and bytes that hold no
instruction are rejected as R98 and R99 say.
-/
namespace Sys2Proof

/-! Decode and encode. -/

/-- A row's instruction is assembled from its own operand bytes, whatever follows them (R81). -/
theorem assemble_operands_append (i : Instr) (rest : List Byte) : assemble i.op (i.operands ++ rest) = some i := by
  cases i <;> rfl

theorem decode_encode_append (i : Instr) (rest : List Byte) : decode (encode i ++ rest) = .ok i := by
  have hop : lookupOpcode (opcodeByte i.op) = some i.op := lookupOpcode_eq_some.mpr rfl
  simp [encode, decode, hop, assemble_operands_append]

/-- Settles O1. -/
theorem decodeEncodeAgree : Obligations.DecodeEncodeAgree := by
  intro bytes i
  constructor
  · exact decode_eq_ok
  · rintro ⟨rest, rfl⟩
    exact decode_encode_append i rest

/-- Settles O2: each word is the encoding of its instruction. -/
theorem decodesSpecWords : Obligations.DecodesSpecWords := by
  have hword (i : Instr) : decode (encode i) = .ok i := by simpa using decode_encode_append i []
  exact ⟨⟨hword .hlt, rfl, rfl⟩, ⟨hword .ret, rfl, rfl⟩, ⟨hword (.push 2), rfl, rfl⟩, ⟨hword (.pop 5), rfl, rfl⟩,
    ⟨hword (.prn 0), rfl, rfl⟩, ⟨hword (.call 1), rfl, rfl⟩, ⟨hword (.jmp 2), rfl, rfl⟩, ⟨hword (.jeq 3), rfl, rfl⟩,
    ⟨hword (.jne 3), rfl, rfl⟩, ⟨hword (.not 3), rfl, rfl⟩, ⟨hword (.ldi 0 8), rfl, rfl⟩, ⟨hword (.add 0 1), rfl, rfl⟩,
    ⟨hword (.mul 0 1), rfl, rfl⟩, ⟨hword (.cmp 0 1), rfl, rfl⟩, ⟨hword (.and 2 1), rfl, rfl⟩, ⟨hword (.or 0 1), rfl, rfl⟩,
    ⟨hword (.xor 6 5), rfl, rfl⟩⟩

/-! Bytes that hold no instruction. -/

/-- An opcode byte outside the map is rejected, whatever follows it (R98). -/
theorem decode_of_illegal {ir : Byte} (operands : List Byte) (h : lookupOpcode ir = none) :
    decode (ir :: operands) = .error (.illegalInstruction ir) := by
  simp [decode, h]

/-- A row's instruction is assembled wherever there are as many bytes as its format has operands (R81). -/
theorem assemble_of_length {op : Op} {operands : List Byte} (h : op.format.operandCount ≤ operands.length) :
    ∃ i, assemble op operands = some i := by
  cases op
  case hlt | ret => exact ⟨_, rfl⟩
  case ldi | add | mul | cmp | and | or | xor =>
    match operands, h with
    | a :: b :: rest, _ => exact ⟨_, rfl⟩
  all_goals
    match operands, h with
    | a :: rest, _ => exact ⟨_, rfl⟩

/-- Fewer bytes than the width of the opcode's row are rejected for a missing operand (R99). -/
theorem decode_of_short {ir : Byte} {op : Op} {operands : List Byte} (hop : lookupOpcode ir = some op)
    (hlen : (ir :: operands).length < op.width) : decode (ir :: operands) = .error (.missingOperand ir) := by
  cases h : assemble op operands with
  | none => simp [decode, hop, h]
  | some i =>
    obtain ⟨rfl, rest, rfl⟩ := assemble_eq_some h
    exact absurd hlen (by simp [← length_encode, encode])

/-- As many bytes as the width of the opcode's row decode to an instruction of that row (R86, R99). -/
theorem decode_of_length {ir : Byte} {op : Op} {operands : List Byte} (hop : lookupOpcode ir = some op)
    (hlen : op.width ≤ (ir :: operands).length) : ∃ i : Instr, i.op = op ∧ decode (ir :: operands) = .ok i := by
  have hcount : op.format.operandCount ≤ operands.length := by
    simp only [Op.width, List.length_cons] at hlen
    omega
  obtain ⟨i, hi⟩ := assemble_of_length hcount
  exact ⟨i, (assemble_eq_some hi).1, by simp [decode, hop, hi]⟩

/-- A byte has no row exactly when it differs from all 17 opcodes of the table (R86). -/
theorem lookupOpcode_eq_none {b : Byte} :
    lookupOpcode b = none ↔ b.toNat ∉ opcodeTable.map (fun row => row.1.toNat) := by
  simp [lookupOpcode, ← BitVec.toNat_inj]

/-! Bounds of the formats. -/

/-- No format has more than two register fields (R81, R100). -/
theorem Instr.length_regFields_le_two (i : Instr) : i.regFields.length ≤ 2 := by
  cases i <;> simp [Instr.regFields]

/-- The longest formats are three bytes (R81). -/
theorem Op.width_le_three (op : Op) : op.width ≤ 3 := by cases op <;> decide

end Sys2Proof
end

section
/-!
One step from the bytes at PC (R95 to R104): what the latches hold, which instruction they decode to, and what is raised where
they decode to none or a register field names no register.
-/
namespace Sys2Proof.Machine

variable {i : Instr} {s : State} {f : Fetched}

/-! The latched bytes. -/

/-- The latched bytes are those of memory from PC on (R96, R97). After a missing byte the next is missing too. -/
theorem getElem?_bytes_of_fetch (hf : fetch s = some f) {k : Nat} (hk : k < 3) :
    f.bytes[k]? = s.mem.read (s.pc + k) := by
  obtain ⟨ir, opA, opB⟩ := f
  obtain ⟨hir, hA, hB⟩ : s.mem.read s.pc = some ir ∧ opA = s.mem.read (s.pc + 1) ∧ opB = s.mem.read (s.pc + 2) :=
    fetch_eq_some hf
  interval_cases k
  · exact hir.symm
  · rw [← hA]
    cases opA <;> cases opB <;> rfl
  · cases opA with
    | none =>
      have hend := (Memory.read_eq_none _ _).mp hA.symm
      exact ((Memory.read_eq_none _ _).mpr (by omega)).symm
    | some a =>
      rw [← hB]
      cases opB <;> rfl

/-- The latches decode to `i` exactly where memory holds the encoding of `i` from PC on. -/
theorem decode_bytes_eq_ok_iff (hf : fetch s = some f) :
    decode f.bytes = .ok i ↔ ∀ k b, (encode i)[k]? = some b → s.mem.read (s.pc + k) = some b := by
  have hlatched {k : Nat} {b : Byte} (hb : (encode i)[k]? = some b) : f.bytes[k]? = s.mem.read (s.pc + k) := by
    obtain ⟨hk, -⟩ := List.getElem?_eq_some_iff.mp hb
    exact getElem?_bytes_of_fetch hf ((length_encode i ▸ hk).trans_le i.op.width_le_three)
  have hheads : decode f.bytes = .ok i ↔ encode i <+: f.bytes := by
    rw [decodeEncodeAgree]
    exact exists_congr fun _ => eq_comm
  rw [hheads, List.prefix_iff_getElem?]
  constructor
  · intro h k b hb
    obtain ⟨hk, rfl⟩ := List.getElem?_eq_some_iff.mp hb
    rw [← hlatched hb, h k hk]
  · intro h k hk
    have hb : (encode i)[k]? = some (encode i)[k] := List.getElem?_eq_getElem hk
    rw [hlatched hb, h k _ hb]

/-- A row's last byte is missing from the latches exactly where its address is past the memory (R99). -/
theorem length_bytes_lt_width_iff (hf : fetch s = some f) (op : Op) :
    f.bytes.length < op.width ↔ s.mem.size ≤ s.pc + op.width - 1 := by
  have hpos : 1 ≤ op.width := Nat.le_add_right 1 _
  have hle := op.width_le_three
  have hlast := getElem?_bytes_of_fetch hf (k := op.width - 1) (by omega)
  rw [Nat.add_sub_assoc hpos, ← Memory.read_eq_none, ← hlast, List.getElem?_eq_none_iff]
  omega

/-! What a step answers. -/

/-- A running core whose opcode fetch is out of range raises it (R96). -/
theorem step_of_fetch_none (hrun : s.run = .running) (hf : fetch s = none) : step s = raiseFetch s := by
  simp [step, hrun, hf]

/-- A running core raises what the decoder rejects (R98, R99). -/
theorem step_of_decode_error {e : DecodeError} (hrun : s.run = .running) (hf : fetch s = some f)
    (he : decode f.bytes = .error e) : step s = raiseDecode f.ir e s := by
  simp [step, hrun, hf, he]

/-- What the decoder raises is a next state (R206). -/
theorem raiseDecode_answers_next (ir : Byte) (e : DecodeError) (s : State) : ∃ t, raiseDecode ir e s = .next t := by
  cases e <;> exact ⟨_, rfl⟩

/-- Settles O19. -/
theorem stepAlwaysAnswersNext : Obligations.StepAlwaysAnswersNext := by
  intro s
  rcases step_cases (s := s) rfl with ⟨-, h⟩ | ⟨-, -, h⟩ | ⟨f, e, -, -, -, h⟩ | ⟨f, i, -, -, -, h⟩
  · exact ⟨s, h⟩
  · exact ⟨_, h⟩
  · exact h ▸ raiseDecode_answers_next f.ir e s
  · obtain ⟨t, ht, -⟩ := exec_effect i s
    exact ⟨t, h ▸ ht⟩

/-- Settles O18. -/
theorem noStepOutsideRunning : Obligations.NoStepOutsideRunning := by
  intro s hs
  obtain ⟨t, ht⟩ := stepAlwaysAnswersNext s
  rw [ht, step_next_eq_of_ne_running hs ht]

/-- Settles O9. -/
theorem stepRunsDecodedInstruction : Obligations.StepRunsDecodedInstruction :=
  fun _ _ _ hrun hf hi _ => step_of_decoded hrun hf hi

/-- Settles O10: the bytes of the encoding are latched, so they decode. -/
theorem stepRunsEncodedBytes : Obligations.StepRunsEncodedBytes := by
  intro s i hrun hbytes
  have hf := fetch_of_read (hbytes 0 _ rfl)
  exact step_of_decoded hrun hf ((decode_bytes_eq_ok_iff hf).mpr hbytes)

/-- A running core with the opcode of an instruction without operands at PC executes it, whatever lies after it (R97). -/
theorem step_of_operands_nil (hi : i.operands = []) (hrun : s.run = .running)
    (hir : s.mem.read s.pc = some (opcodeByte i.op)) : step s = exec i s := by
  refine stepRunsEncodedBytes s i hrun fun k b hb => ?_
  rw [encode, hi, List.getElem?_singleton] at hb
  split at hb
  · next hk => rw [hk, ← hb]; exact hir
  · cases hb

/-- Settles O12. -/
theorem speculativeOperandLatches : Obligations.SpeculativeOperandLatches := by
  intro s hpc
  obtain ⟨ir, hir⟩ := Memory.read_of_lt hpc
  refine ⟨_, fetch_of_read hir, hir, rfl, rfl, (Memory.read_eq_none _ _).mpr, (Memory.read_eq_none _ _).mpr, ?_, ?_⟩
  · rintro hrun rfl
    exact step_of_operands_nil rfl hrun hir
  · rintro hrun rfl
    exact step_of_operands_nil rfl hrun hir

/-- Settles O11. -/
theorem opcodeFetchOutOfRange : Obligations.OpcodeFetchOutOfRange := by
  intro s
  constructor
  · intro hpc
    obtain ⟨ir, hir⟩ := Memory.read_of_lt hpc
    exact ⟨_, fetch_of_read hir, hir⟩
  · intro hrun hpc
    exact ⟨step_of_fetch_none hrun (fetch_eq_none.mpr hpc), by omega⟩

/-- Settles O3. -/
theorem illegalOpcodesFault : Obligations.IllegalOpcodesFault := by
  refine ⟨fun b => ?_, by decide +kernel, fun s b hrun hb hop => ?_⟩
  · have hb := b.isLt
    have hrows : opcodeTable.map (fun row => row.1.toNat) = [0x01, 0x11, 0x45, 0x46, 0x47, 0x50, 0x54, 0x55, 0x56, 0x69,
        0x82, 0xA0, 0xA2, 0xA7, 0xA8, 0xAA, 0xAB] := rfl
    rw [lookupOpcode_eq_none, hrows]
    simp only [List.mem_cons, List.not_mem_nil, or_false]
    omega
  · exact step_of_decode_error hrun (fetch_of_read hb) (decode_of_illegal _ hop)

/-- Settles O13: the latches hold the row's last byte, or it is missing. -/
theorem operandBytesOutOfRange : Obligations.OperandBytesOutOfRange := by
  intro s ir op hrun hir hop
  have hf := fetch_of_read hir
  have hshort := length_bytes_lt_width_iff hf op
  split
  · next hout => exact step_of_decode_error hrun hf (decode_of_short hop (hshort.mpr hout))
  · next hin =>
    obtain ⟨i, hiop, hi⟩ := decode_of_length hop (Nat.le_of_not_lt (mt hshort.mp hin))
    exact ⟨i, hiop, (decode_bytes_eq_ok_iff hf).mp hi, step_of_decoded hrun hf hi⟩

/-! The register fields (R100). -/

/-- A register field above 7 raises OutOfRange with the byte as detail, whatever the rule. -/
theorem withReg_of_gt {op : Op} {b : Byte} (rule : RegIdx → Result) (h : 7 < b.toNat) :
    withReg op b s rule = raiseOutOfRange op b.toNat s := by
  simp [withReg, (regIndex_eq_none b).mpr h]

/-- An instruction with a register field checks the first one before anything else. -/
theorem exec_eq_withReg {b : Byte} {fields : List Byte} (h : i.regFields = b :: fields) (s : State) :
    ∃ rule, exec i s = withReg i.op b s rule := by
  cases i <;> cases h <;> exact ⟨_, rfl⟩

/-- An instruction with two register fields checks both, in order, before anything else. -/
theorem exec_eq_withRegs {a b : Byte} {fields : List Byte} (h : i.regFields = a :: b :: fields) (s : State) :
    ∃ rule, exec i s = withRegs i.op a b s rule := by
  cases i <;> cases h <;> exact ⟨_, rfl⟩

/-- Settles O14: by whether the field is the first or the second. -/
theorem registerFieldOutOfRange : Obligations.RegisterFieldOutOfRange := by
  intro i s before after b hfields hbefore hb
  match before with
  | [] =>
    obtain ⟨rule, hrule⟩ := exec_eq_withReg hfields s
    rw [hrule]
    exact withReg_of_gt rule hb
  | [a] =>
    obtain ⟨rule, hrule⟩ := exec_eq_withRegs hfields s
    obtain ⟨r, rfl⟩ : ∃ r, a = regByte r :=
      eq_regByte_of_namesRegister (decide_eq_true (Nat.lt_succ_of_le (hbefore a (.head _))))
    rw [hrule, withRegs, withReg_regByte]
    exact withReg_of_gt _ hb
  | _ :: _ :: _ =>
    have hlen := i.length_regFields_le_two
    simp [hfields] at hlen

end Sys2Proof.Machine
end

section
/-!
The ALU instructions (R121 to R127): the meaning of each on registers, what its result is as a number or bit by bit, and the
frame that all six with a register result share.
-/
namespace Sys2Proof.Machine

section
variable (a b : RegIdx) (s : State)

/-! The meaning of each instruction whose operands name registers. CMP's is `exec_cmp_regByte`. -/

theorem exec_add_regByte : exec (.add (regByte a) (regByte b)) s =
    .next ((s.setReg a (aluAdd (s.reg a) (s.reg b))).advance 3) :=
  withRegs_regByte _ _ _ _ _

theorem exec_mul_regByte : exec (.mul (regByte a) (regByte b)) s =
    .next ((s.setReg a (aluMul (s.reg a) (s.reg b))).advance 3) :=
  withRegs_regByte _ _ _ _ _

theorem exec_and_regByte : exec (.and (regByte a) (regByte b)) s =
    .next ((s.setReg a (s.reg a &&& s.reg b)).advance 3) :=
  withRegs_regByte _ _ _ _ _

theorem exec_or_regByte : exec (.or (regByte a) (regByte b)) s =
    .next ((s.setReg a (s.reg a ||| s.reg b)).advance 3) :=
  withRegs_regByte _ _ _ _ _

theorem exec_xor_regByte : exec (.xor (regByte a) (regByte b)) s =
    .next ((s.setReg a (s.reg a ^^^ s.reg b)).advance 3) :=
  withRegs_regByte _ _ _ _ _

theorem exec_not_regByte : exec (.not (regByte a)) s = .next ((s.setReg a (aluNot (s.reg a))).advance 2) :=
  withReg_regByte _ _ _ _

/-! The results. -/

/-- ADD wraps modulo 256 (R121). -/
@[simp] theorem aluAdd_toNat (x y : Byte) : (aluAdd x y).toNat = (x.toNat + y.toNat) % 256 := mask8_toNat _

/-- MUL keeps the low 8 bits (R122). -/
@[simp] theorem aluMul_toNat (x y : Byte) : (aluMul x y).toNat = (x.toNat * y.toNat) % 256 := mask8_toNat _

/-- NOT's mask never cuts anything off (R126). -/
@[simp] theorem aluNot_toNat (x : Byte) : (aluNot x).toNat = 0xFF - x.toNat := by
  rw [aluNot, mask8_toNat]
  omega

/-- NOT is the bitwise complement (R126). -/
theorem aluNot_eq_complement (x : Byte) : aluNot x = ~~~x :=
  BitVec.eq_of_toNat_eq (by rw [aluNot_toNat, BitVec.toNat_not])

/-- Each flag of CMP is its own unsigned comparison (R127). -/
theorem compareFlags_eq_decide (x y : Byte) : compareFlags x y =
    { lt := decide (x.toNat < y.toNat), gt := decide (y.toNat < x.toNat), eq := decide (x.toNat = y.toNat) } := by
  unfold compareFlags
  rcases Nat.lt_trichotomy x.toNat y.toNat with h | h | h
  · simp [h, h.ne, h.not_gt]
  · simp [h]
  · simp [h, h.ne', h.not_gt]

/-! The frame. -/

/-- A register result written and PC advanced: nothing but that register and PC changes. -/
theorem advance_setReg_frame (v : Byte) (w : Nat) :
    ((s.setReg a v).advance w).pc = s.pc + w ∧ s.regsSameExcept ((s.setReg a v).advance w) [a] ∧
      ((s.setReg a v).advance w).flags = s.flags ∧ s.memSame ((s.setReg a v).advance w) ∧
      s.restSame ((s.setReg a v).advance w) :=
  ⟨rfl, fun r hr => State.reg_setReg_ne s a r v (List.ne_of_not_mem_cons hr), rfl, ⟨rfl, fun _ => rfl⟩, rfl, rfl, rfl⟩

end

/-! The statements. -/

/-- Settles O20. -/
theorem addResult : Obligations.AddResult := by
  intro s a b
  refine ⟨rfl, _, exec_add_regByte a b s, ?_, advance_setReg_frame a s _ 3⟩
  rw [State.advance_reg, State.reg_setReg_self, aluAdd_toNat]

/-- Settles O21. -/
theorem mulResult : Obligations.MulResult := by
  intro s a b
  refine ⟨rfl, _, exec_mul_regByte a b s, ?_, advance_setReg_frame a s _ 3⟩
  rw [State.advance_reg, State.reg_setReg_self, aluMul_toNat]

/-- Settles O22. -/
theorem andResult : Obligations.AndResult := by
  intro s a b
  refine ⟨rfl, _, exec_and_regByte a b s, fun k => ?_, advance_setReg_frame a s _ 3⟩
  rw [State.advance_reg, State.reg_setReg_self, BitVec.getLsbD_and]

/-- Settles O23. -/
theorem orResult : Obligations.OrResult := by
  intro s a b
  refine ⟨rfl, _, exec_or_regByte a b s, fun k => ?_, advance_setReg_frame a s _ 3⟩
  rw [State.advance_reg, State.reg_setReg_self, BitVec.getLsbD_or]

/-- Settles O24. -/
theorem xorResult : Obligations.XorResult := by
  intro s a b
  refine ⟨rfl, _, exec_xor_regByte a b s, fun k => ?_, advance_setReg_frame a s _ 3⟩
  rw [State.advance_reg, State.reg_setReg_self, BitVec.getLsbD_xor]

/-- Settles O25: the difference is the number, the complement gives the bits. -/
theorem notResult : Obligations.NotResult := by
  intro s a
  refine ⟨rfl, _, exec_not_regByte a s, ?_, fun k hk => ?_, advance_setReg_frame a s _ 2⟩
  · rw [State.advance_reg, State.reg_setReg_self, aluNot_toNat]
  · rw [State.advance_reg, State.reg_setReg_self, aluNot_eq_complement]
    simp [hk]

/-- Settles O26. -/
theorem cmpResult : Obligations.CmpResult := by
  intro s a b
  refine ⟨rfl, _, exec_cmp_regByte a b s, ?_, ?_, ?_, compareFlags_exactlyOne _ _, rfl, fun _ _ => rfl, ⟨rfl, fun _ => rfl⟩,
    rfl, rfl, rfl⟩
  all_goals
    rw [State.advance_flags, State.setFlags_flags, compareFlags_eq_decide]
    exact decide_eq_true_iff

/-- Settles O48, from what one NOT leaves: 0xFF - (0xFF - x) is x, and the other registers stay twice. -/
theorem notTwiceRestores : Obligations.NotTwiceRestores := by
  intro s a
  obtain ⟨-, t, ht, htval, -, htpc, htregs, -⟩ := notResult s a
  obtain ⟨-, u, hu, huval, -, hupc, huregs, -⟩ := notResult t a
  refine ⟨t, u, ht, hu, htpc, by rw [hupc, htpc], fun r => ?_⟩
  by_cases hr : r = a
  · subst hr
    have hlt := (s.reg r).isLt
    exact BitVec.eq_of_toNat_eq (by omega)
  · have hother : r ∉ [a] := mt List.mem_singleton.mp hr
    rw [huregs r hother, htregs r hother]

end Sys2Proof.Machine
end

section
/-!
Data transfer (R150 to R153): what the two moves of SP leave in the registers, the frame of a push, PUSH and POP on both sides of
the end of memory, and the statements about LDI, PUSH and POP.
-/
namespace Sys2Proof.Machine

variable {s : State}

/-! The moves of SP. -/

/-- The decrement of SP changes R7 alone (R151). -/
theorem decSp_reg (r : RegIdx) : (decSp s).reg r = if r = 7 then pushAddr s else s.reg r :=
  State.reg_setReg s 7 r (pushAddr s)

/-- The increment of SP changes R7 alone (R152). -/
theorem incSp_reg (r : RegIdx) : (incSp s).reg r = if r = 7 then s.sp + 1 else s.reg r :=
  State.reg_setReg s 7 r (s.sp + 1)

/-- The increment undoes the decrement, modulo 256. -/
theorem pushAddr_add_one (s : State) : pushAddr s + 1 = s.reg 7 := BitVec.sub_add_cancel _ _

/-- A byte pushed: SP and the byte at the push address change, and nothing else (R153). -/
theorem push_frame {m : Memory} {v : Byte} (hm : s.mem.write (pushAddr s).toNat v = some m) :
    ((decSp s).setMem m).reg 7 = pushAddr s ∧ m.read (pushAddr s).toNat = some v ∧
      s.regsSameExcept ((decSp s).setMem m) [7] ∧ s.memSameExcept ((decSp s).setMem m) (pushAddr s).toNat ∧
      s.restSame ((decSp s).setMem m) :=
  ⟨decSp_sp s, Memory.read_write_self hm, fun r hr => State.reg_setReg_ne s 7 r _ (List.ne_of_not_mem_cons hr),
    ⟨Memory.write_size hm, fun _ => Memory.read_write_ne hm⟩, rfl, rfl, rfl⟩

/-! The meaning of each instruction whose operand names a register. PUSH inside the memory is `exec_push_of_lt`. -/

/-- LDI writes the immediate as it stands (R150). -/
theorem exec_ldi_regByte (a : RegIdx) (imm : Byte) (s : State) :
    exec (.ldi (regByte a) imm) s = .next ((s.setReg a imm).advance 3) :=
  withReg_regByte _ _ _ _

/-- PUSH to an address outside the memory faults with that address (R151). -/
theorem exec_push_of_le (a : RegIdx) (h : s.mem.size ≤ (pushAddr s).toNat) :
    exec (.push (regByte a)) s = raiseOutOfRange .push (pushAddr s).toNat s := by
  have hstore : storeAtSp (decSp s) ((decSp s).reg a) = none := storeAtSp_eq_none.mpr (by rw [decSp_sp]; exact h)
  simp [exec, execPush, hstore, decSp_sp]

/-- POP of the byte `v` at SP (R152). -/
theorem exec_pop_of_read (a : RegIdx) {v : Byte} (h : s.mem.read (s.reg 7).toNat = some v) :
    exec (.pop (regByte a)) s = .next ((incSp (s.setReg a v)).advance 2) := by
  obtain ⟨w, hw, hexec⟩ := exec_pop_of_lt a ((Memory.read_eq_some _ _ _).mp h).1
  obtain rfl : v = w := Option.some.inj (h.symm.trans hw)
  exact hexec

/-- POP from an SP outside the memory faults with SP (R152). -/
theorem exec_pop_of_le (a : RegIdx) (h : s.mem.size ≤ (s.reg 7).toNat) :
    exec (.pop (regByte a)) s = raiseOutOfRange .pop (s.reg 7).toNat s := by
  have hload : loadAtSp s = none := (Memory.read_eq_none _ _).mpr h
  simp [exec, execPop, hload, State.sp_eq]

/-! The statements. -/

/-- Settles O27. -/
theorem ldiResult : Obligations.LdiResult := by
  intro s a imm
  exact ⟨rfl, _, exec_ldi_regByte a imm s, State.reg_setReg_self s a imm, advance_setReg_frame a s imm 3⟩

/-- Settles O28: the register is read after the decrement of SP, so R7 gives the decremented SP. -/
theorem pushResult : Obligations.PushResult := by
  intro s a
  refine ⟨rfl, rfl, fun hlt => ?_, exec_push_of_le a⟩
  obtain ⟨m, hm, hexec⟩ := exec_push_of_lt a hlt
  rw [decSp_reg] at hm
  obtain ⟨hsp, hread, hregs, hmem, hrest⟩ := push_frame hm
  exact ⟨_, hexec, hsp, hread, rfl, hregs, rfl, hmem, hrest⟩

/-- Settles O29: SP is incremented after the byte is written, so the increment of POP R7 applies to the byte. -/
theorem popResult : Obligations.PopResult := by
  intro s a
  refine ⟨rfl, fun v hv => ⟨_, exec_pop_of_read a hv, ?_, rfl, fun r hr => ?_, rfl, ⟨rfl, fun _ => rfl⟩, rfl, rfl, rfl⟩,
    exec_pop_of_le a⟩
  · simp only [State.advance_reg, incSp_reg, if_true]
    split
    · next ha => rw [ha, State.sp_setReg_seven]
    · next ha => rw [State.reg_setReg_self, State.sp_setReg_ne s a v ha, State.sp_eq]; exact ⟨rfl, rfl⟩
  · obtain ⟨hra, hr7⟩ : r ≠ a ∧ r ≠ 7 := by simpa using hr
    rw [State.advance_reg, incSp_reg, if_neg hr7, State.reg_setReg_ne s a r v hra]

/-- Settles O46, from what one PUSH and one POP leave. -/
theorem pushThenPopRoundTrip : Obligations.PushThenPopRoundTrip := by
  intro s a b ha hb hlt
  obtain ⟨-, -, hpush, -⟩ := pushResult s a
  obtain ⟨t, ht, htsp, htread, htpc, htregs, -⟩ := hpush hlt
  rw [if_neg ha] at htread
  obtain ⟨-, hpop, -⟩ := popResult t b
  obtain ⟨u, hu, huval, hupc, huregs, -⟩ := hpop (s.reg a) (htsp ▸ htread)
  rw [if_neg hb] at huval
  obtain ⟨hub, husp⟩ := huval
  have hsp : u.reg 7 = s.reg 7 := by rw [husp, htsp, pushAddr_add_one]
  refine ⟨t, u, ht, hu, hub, hsp, by rw [hupc, htpc], fun r hr => ?_⟩
  by_cases hr7 : r = 7
  · rw [hr7, hsp]
  · rw [huregs r (by simpa [hr7] using hr), htregs r (by simpa using hr7)]

end Sys2Proof.Machine
end

section
/-!
Control transfer (R170 to R176): the frame of a written PC, CALL, RET and the jumps on operands that name registers, and the
statements about them.
-/
namespace Sys2Proof.Machine

variable {s : State}

/-! The meaning of each instruction whose operand names a register. CALL without a fault is `exec_call_of_lt`. -/

/-- CALL whose return address is above 255 faults with that address (R170, D18). -/
theorem exec_call_of_gt (a : RegIdx) (hpc : 255 < s.pc + 2) :
    exec (.call (regByte a)) s = raiseOutOfRange .call (s.pc + 2) s := by
  simp [exec, execCall, Config.maxReturnAddress, hpc]

/-- CALL that pushes to an address outside the memory faults with that address (R170). -/
theorem exec_call_of_le (a : RegIdx) (hpc : s.pc + 2 ≤ 255) (h : s.mem.size ≤ (pushAddr s).toNat) :
    exec (.call (regByte a)) s = raiseOutOfRange .call (pushAddr s).toNat s := by
  have hstore : storeAtSp (decSp s) (mask8 (s.pc + 2)) = none := storeAtSp_eq_none.mpr (by rw [decSp_sp]; exact h)
  simp [exec, execCall, Config.maxReturnAddress, Nat.not_lt.mpr hpc, hstore, decSp_sp]

/-- RET to the byte `v` at SP (R171). -/
theorem exec_ret_of_read {v : Byte} (h : s.mem.read (s.reg 7).toNat = some v) :
    exec .ret s = .next (incSp (s.setPc v.toNat)) := by
  obtain ⟨w, hw, hexec⟩ := exec_ret_of_lt ((Memory.read_eq_some _ _ _).mp h).1
  obtain rfl : v = w := Option.some.inj (h.symm.trans hw)
  exact hexec

/-- RET from an SP outside the memory faults with SP (R171). -/
theorem exec_ret_of_le (h : s.mem.size ≤ (s.reg 7).toNat) :
    exec .ret s = raiseOutOfRange .ret (s.reg 7).toNat s := by
  have hload : loadAtSp s = none := (Memory.read_eq_none _ _).mpr h
  simp [exec, execRet, hload, State.sp_eq]

/-- JMP writes PC alone (R172). -/
theorem exec_jmp_regByte (a : RegIdx) (s : State) : exec (.jmp (regByte a)) s = .next (s.setPc (s.reg a).toNat) :=
  withReg_regByte _ _ _ _

/-- JEQ writes PC alone, taken or not (R173). -/
theorem exec_jeq_regByte (a : RegIdx) (s : State) : exec (.jeq (regByte a)) s =
    .next (s.setPc (if s.flags.eq = true then (s.reg a).toNat else s.pc + 2)) := by
  rw [apply_ite s.setPc]
  exact withReg_regByte _ _ _ _

/-- JNE writes PC alone, taken or not (R174). -/
theorem exec_jne_regByte (a : RegIdx) (s : State) : exec (.jne (regByte a)) s =
    .next (s.setPc (if s.flags.eq = false then (s.reg a).toNat else s.pc + 2)) := by
  simp only [← Bool.not_eq_true, ite_not]
  rw [apply_ite s.setPc]
  exact withReg_regByte _ _ _ _

/-! The frame. -/

/-- PC written: nothing but PC changes. -/
theorem setPc_frame (s : State) (n : Nat) : s.regsSameExcept (s.setPc n) [] ∧ (s.setPc n).flags = s.flags ∧
    s.memSame (s.setPc n) ∧ s.restSame (s.setPc n) :=
  ⟨fun _ _ => rfl, rfl, ⟨rfl, fun _ => rfl⟩, rfl, rfl, rfl⟩

/-! The statements. -/

/-- Settles O30: the pushed byte is PC + 2 because that fits, and the target is read after the decrement of SP. -/
theorem callResult : Obligations.CallResult := by
  intro s a
  refine ⟨rfl, fun hpc hlt => ?_, exec_call_of_gt a, exec_call_of_le a⟩
  obtain ⟨m, hm, hexec⟩ := exec_call_of_lt a hpc hlt
  obtain ⟨hsp, hread, hregs, hmem, hrest⟩ := push_frame hm
  have hval : (mask8 (s.pc + 2)).toNat = s.pc + 2 := (mask8_toNat _).trans (Nat.mod_eq_of_lt (Nat.lt_succ_of_le hpc))
  exact ⟨_, hexec, hsp, ⟨_, hread, hval⟩, congrArg BitVec.toNat (decSp_reg a), hregs, rfl, hmem, hrest⟩

/-- Settles O31. -/
theorem retResult : Obligations.RetResult := by
  intro s
  refine ⟨rfl, fun v hv => ⟨_, exec_ret_of_read hv, rfl, ?_, fun r hr => ?_, rfl, ⟨rfl, fun _ => rfl⟩, rfl, rfl, rfl⟩,
    exec_ret_of_le⟩
  · rw [incSp_reg, if_pos rfl, State.setPc_sp, State.sp_eq]
  · rw [incSp_reg, if_neg (List.ne_of_not_mem_cons hr), State.setPc_reg]

/-- Settles O32. -/
theorem jmpResult : Obligations.JmpResult :=
  fun s a => ⟨rfl, _, exec_jmp_regByte a s, rfl, setPc_frame s _⟩

/-- Settles O33. -/
theorem jeqResult : Obligations.JeqResult :=
  fun s a => ⟨rfl, _, exec_jeq_regByte a s, rfl, setPc_frame s _⟩

/-- Settles O34. -/
theorem jneResult : Obligations.JneResult :=
  fun s a => ⟨rfl, _, exec_jne_regByte a s, rfl, setPc_frame s _⟩

/-- Settles O47, from what one CALL and one RET leave: RET reads the byte CALL pushed, and its increment of SP undoes CALL's
decrement. -/
theorem callThenRetReturns : Obligations.CallThenRetReturns := by
  intro s a hpc hlt
  obtain ⟨-, hcall, -⟩ := callResult s a
  obtain ⟨t, ht, htsp, ⟨v, hread, hv⟩, -, htregs, -⟩ := hcall hpc hlt
  obtain ⟨-, hret, -⟩ := retResult t
  obtain ⟨u, hu, hupc, husp, huregs, -⟩ := hret v (htsp ▸ hread)
  refine ⟨t, u, ht, hu, hupc.trans hv, fun r => ?_⟩
  by_cases hr : r = 7
  · rw [hr, husp, htsp, pushAddr_add_one]
  · have hother : r ∉ [7] := mt List.mem_singleton.mp hr
    rw [huregs r hother, htregs r hother]

end Sys2Proof.Machine
end

section
/-!
HLT and PRN (R190, R191): that HLT alone leads from Running to Halted, the meaning of PRN on an operand that names a register, and
the statements about both.
-/
namespace Sys2Proof.Machine

/-- HLT is the one instruction of its row, which has no operand (R85). -/
theorem eq_hlt_of_op {i : Instr} (h : i.op = .hlt) : i = .hlt := by
  cases i <;> cases h
  rfl

/-- From Running, the effect of an instruction is Halted only where the instruction is HLT: the others keep the run state or
fault (R190). -/
theorem ExecEffect.eq_hlt_of_halted {i : Instr} {s t : State} (h : ExecEffect i s t) (hs : s.run = .running)
    (ht : t.run = .halted) : i = .hlt := by
  rcases h.run_cases with ⟨hsame, -⟩ | ⟨hop, -⟩ | ⟨d, rfl⟩
  · cases ht.symm.trans (hsame.trans hs)
  · exact eq_hlt_of_op hop
  · cases ht

/-- PRN appends the register's value to the output and advances PC (R191). -/
theorem exec_prn_regByte (a : RegIdx) (s : State) :
    exec (.prn (regByte a)) s = .next ((s.emit (s.reg a)).advance 2) :=
  withReg_regByte _ _ _ _

/-- Settles O35: the halted state is terminal until a reset, and only HLT's effect is Halted. -/
theorem hltResult : Obligations.HltResult := by
  intro s
  obtain ⟨hstep, hrun, hload, -⟩ := terminalUntilReset (s.setRun .halted) (.inl rfl)
  exact ⟨rfl, ⟨_, rfl, rfl, rfl, fun _ _ => rfl, rfl, ⟨rfl, fun _ => rfl⟩, rfl, rfl, hstep, hrun, hload⟩,
    fun _ _ hs hexec => (effect_of_exec hexec).eq_hlt_of_halted hs⟩

/-- Settles O36. -/
theorem prnResult : Obligations.PrnResult :=
  fun s a => ⟨rfl, _, exec_prn_regByte a s, rfl, rfl, fun _ _ => rfl, rfl, ⟨rfl, fun _ => rfl⟩, rfl, rfl⟩

end Sys2Proof.Machine
end

section
/-!
Faults (R200 to R209): what a step of a running core does to the fault record, which fault of an instruction comes first (R208),
and the codes of the record.
-/
namespace Sys2Proof.Machine

variable {i : Instr} {s t : State}

/-! The codes (R200). -/

theorem faultCode_of_fault {r : FaultRecord} (h : s.fault = some r) : s.faultCode = r.kind.code := by
  simp [State.faultCode, h]

/-- Settles O55. -/
theorem faultCodes : Obligations.FaultCodes := by
  refine ⟨rfl, fun s r h => ?_⟩
  rw [faultCode_of_fault h]
  refine ⟨fun hk => ?_, fun hk => ?_, fun hk => ?_⟩ <;> rw [hk] <;> rfl

/-! What a step does to the record (R206). -/

/-- A step of a running core leaves the fault record alone and does not end in Faulted, or it takes a fault with a sound record. -/
theorem step_keeps_record_or_faults (hrun : s.run = .running) (h : step s = .next t) :
    (t.run ≠ .faulted ∧ t.fault = s.fault) ∨ ∃ k o d, t = takeFault k o d s ∧ (faultRecordAt k o d s).wf := by
  rcases step_next_cases h with ⟨hne, -⟩ | ⟨-, hfault⟩ | ⟨-, f, i, -, -, he⟩
  · exact absurd hrun hne
  · exact .inr hfault
  · rcases he.run_cases with ⟨hsame, hrec⟩ | ⟨-, rfl⟩ | ⟨d, rfl⟩
    · exact .inl ⟨by simp [hsame, hrun], hrec⟩
    · exact .inl ⟨by simp, rfl⟩
    · exact .inr ⟨_, _, _, rfl, .inl ⟨rfl, by simp [faultRecordAt]⟩⟩

/-- Settles O16. -/
theorem faultsArePrecise : Obligations.FaultsArePrecise := by
  refine ⟨fun _ _ _ _ => rfl, fun s t hrun h => ?_⟩
  rcases step_keeps_record_or_faults hrun h with ⟨hne, hrec⟩ | ⟨k, o, d, rfl, -⟩
  · exact ⟨fun hf => absurd hf hne, fun _ => hrec⟩
  · exact ⟨fun _ => ⟨faultRecordAt k o d s, rfl, rfl⟩, fun hne => absurd rfl hne⟩

/-- A sound record is not of kind UnsupportedOperation (R128). -/
theorem FaultRecord.wf.kind_ne_unsupported {r : FaultRecord} (h : r.wf) : r.kind ≠ .unsupportedOperation := by
  rcases h with ⟨hk, -⟩ | ⟨hk, -, -⟩ <;> simp [hk]

/-- Settles O17: a record that was not there before is the sound one of a fault taken. -/
theorem unsupportedOperationUnreachable : Obligations.UnsupportedOperationUnreachable := by
  intro s t r hnone h hr
  have hnew : t.fault ≠ s.fault := by simp [hnone, hr]
  by_cases hrun : s.run = .running
  · rcases step_keeps_record_or_faults hrun h with ⟨-, hsame⟩ | ⟨k, o, d, rfl, hwf⟩
    · exact absurd hsame hnew
    · obtain rfl := Option.some.inj hr
      exact hwf.kind_ne_unsupported
  · exact absurd (congrArg State.fault (step_next_eq_of_ne_running hrun h)) hnew

/-! The first fault of an instruction (R202, R208). -/

/-- No register field is above 7 exactly where the instruction is well formed (R100). -/
theorem find?_regFields_eq_none : i.regFields.find? (fun b => decide (7 < b.toNat)) = none ↔ i.wellFormed = true := by
  simp only [List.find?_eq_none, Instr.wellFormed, List.all_eq_true, namesRegister, decide_eq_true_eq, Nat.not_lt,
    Nat.lt_succ_iff]

/-- The first register field above 7 is the one the instruction faults for (R100). -/
theorem exec_of_find?_regFields {b : Byte} (h : i.regFields.find? (fun b => decide (7 < b.toNat)) = some b) (s : State) :
    exec i s = raiseOutOfRange i.op b.toNat s := by
  obtain ⟨hb, before, after, hfields, hbefore⟩ := List.find?_eq_some_iff_append.mp h
  exact registerFieldOutOfRange i s before after b hfields (fun c hc => by simpa using hbefore c hc) (by simpa using hb)

/-- An instruction whose register fields name registers can fault for CALL's return address, then for the address a push writes or
a pop reads, and for nothing else (R202). -/
theorem exec_of_wellFormed (hrun : s.run = .running) (hw : i.wellFormed = true) :
    if i.op = .call ∧ 255 < s.pc + 2 then exec i s = raiseOutOfRange i.op (s.pc + 2) s
    else if (i.op = .push ∨ i.op = .call) ∧ s.mem.size ≤ (pushAddr s).toNat then
      exec i s = raiseOutOfRange i.op (pushAddr s).toNat s
    else if (i.op = .pop ∨ i.op = .ret) ∧ s.mem.size ≤ (s.reg 7).toNat then
      exec i s = raiseOutOfRange i.op (s.reg 7).toNat s
    else ∃ t, exec i s = .next t ∧ t.run ≠ .faulted ∧ t.fault = s.fault := by
  have hreg (b : Byte) := eq_regByte_of_wellFormed (b := b) hw
  have hne : s.run ≠ .faulted := by simp [hrun]
  cases i <;> simp only [Instr.op, reduceCtorEq, false_and, true_and, or_false, false_or, or_self, if_false]
  case hlt => exact ⟨_, rfl, by simp, rfl⟩
  case ret =>
    split
    · next hout => exact exec_ret_of_le hout
    · next hin =>
      obtain ⟨v, -, h⟩ := exec_ret_of_lt (Nat.lt_of_not_le hin)
      exact ⟨_, h, hne, rfl⟩
  case push ra =>
    obtain ⟨a, rfl⟩ := hreg ra (.head _)
    split
    · next hout => exact exec_push_of_le a hout
    · next hin =>
      obtain ⟨m, -, h⟩ := exec_push_of_lt a (Nat.lt_of_not_le hin)
      exact ⟨_, h, hne, rfl⟩
  case pop ra =>
    obtain ⟨a, rfl⟩ := hreg ra (.head _)
    split
    · next hout => exact exec_pop_of_le a hout
    · next hin =>
      obtain ⟨v, -, h⟩ := exec_pop_of_lt a (Nat.lt_of_not_le hin)
      exact ⟨_, h, hne, rfl⟩
  case call ra =>
    obtain ⟨a, rfl⟩ := hreg ra (.head _)
    split
    · next hret => exact exec_call_of_gt a hret
    · next hret =>
      split
      · next hout => exact exec_call_of_le a (Nat.le_of_not_lt hret) hout
      · next hin =>
        obtain ⟨m, -, h⟩ := exec_call_of_lt a (Nat.le_of_not_lt hret) (Nat.lt_of_not_le hin)
        exact ⟨_, h, hne, rfl⟩
  case jeq ra | jne ra =>
    obtain ⟨a, rfl⟩ := hreg ra (.head _)
    exact ⟨_, withReg_regByte _ _ _ _, by split <;> exact ⟨hne, rfl⟩⟩
  case prn ra | jmp ra | not ra | ldi ra imm =>
    obtain ⟨a, rfl⟩ := hreg ra (.head _)
    exact ⟨_, withReg_regByte _ _ _ _, hne, rfl⟩
  case add ra rb | mul ra rb | cmp ra rb | and ra rb | or ra rb | xor ra rb =>
    obtain ⟨a, rfl⟩ := hreg ra (.head _)
    obtain ⟨b, rfl⟩ := hreg rb (.tail _ (.head _))
    exact ⟨_, withRegs_regByte _ _ _ _ _, hne, rfl⟩

/-- Settles O15: the checks of the step in their order, each by the lemma about it. -/
theorem stepReportsFirstFault : Obligations.StepReportsFirstFault := by
  intro s hrun
  split
  · next hir =>
    obtain ⟨-, hfetch⟩ := opcodeFetchOutOfRange s
    exact (hfetch hrun ((Memory.read_eq_none _ _).mp hir)).1
  · next ir hir =>
    split
    · next hop =>
      obtain ⟨-, -, hillegal⟩ := illegalOpcodesFault
      exact hillegal s ir hrun hir hop
    · next op hop =>
      have hoperands := operandBytesOutOfRange s ir op hrun hir hop
      obtain rfl := lookupOpcode_eq_some.mp hop
      intro outOfRange
      split at hoperands
      · next hout => rw [if_pos hout]; exact hoperands
      · next hin =>
        obtain ⟨i, rfl, hbytes, hstep⟩ := hoperands
        rw [if_neg hin]
        refine ⟨i, rfl, hbytes, ?_⟩
        rw [hstep]
        split
        · next b hfind => exact exec_of_find?_regFields hfind s
        · next hfind =>
          simp only [and_self_left]
          exact exec_of_wellFormed hrun (find?_regFields_eq_none.mp hfind)

end Sys2Proof.Machine
end

section
/-!
The trace port (R216): the event of a step is made from what it fetches.
-/
namespace Sys2Proof.Machine

variable {s : State}

theorem traceEvent_of_fetch {f : Fetched} (hrun : s.run = .running) (hf : fetch s = some f) :
    traceEvent s = some { pc := s.pc, bytes := f, x := s.x } := by
  simp [traceEvent, hrun, hf]

theorem traceEvent_of_fetch_none (hf : fetch s = none) : traceEvent s = none := by
  cases hrun : s.run <;> simp [traceEvent, hrun, hf]

theorem traceEvent_of_ne_running (hrun : s.run ≠ .running) : traceEvent s = none := by
  cases h : s.run <;> simp_all [traceEvent]

/-- Settles O54. -/
theorem traceEventContents : Obligations.TraceEventContents := by
  refine fun s => ⟨fun hrun hpc => ?_, fun hpc => traceEvent_of_fetch_none (fetch_eq_none.mpr hpc), traceEvent_of_ne_running⟩
  obtain ⟨f, hf, hir, hA, hB, -⟩ := speculativeOperandLatches s hpc
  exact ⟨_, traceEvent_of_fetch hrun hf, rfl, hir, hA, hB, rfl⟩

end Sys2Proof.Machine
end

section
/-!
The host's port along a run (R36, R67, R240, R242, R245): what each transaction of the host can answer, and that it keeps the
invariant; reset, load and run in a row; and the end of a run (R246).
-/
namespace Sys2Proof.Machine

variable {s t : State}

/-! What the host's transactions can answer. -/

/-- Everything the host's `load` can answer: in Idle an image that fits is stored (R67, R68). -/
theorem hostLoad_eq_next {bytes : List Byte} {base : Nat} (h : hostLoad bytes base s = .next t) :
    s.run = .idle ∧ base + bytes.length ≤ s.mem.size ∧ t = s.setMem (s.mem.storeBytes base bytes) := by
  by_cases hidle : s.run = .idle
  · by_cases hfit : base + bytes.length ≤ s.mem.size
    · rw [hostLoad_of_fit hidle hfit] at h
      cases h
      exact ⟨hidle, hfit, rfl⟩
    · rw [hostLoad_of_not_fit hidle (Nat.lt_of_not_le hfit)] at h
      cases h
  · rw [hostLoad_of_ne_idle bytes base hidle] at h
    cases h

/-- Everything the host's `run` can answer: in Idle the core starts (R36). -/
theorem hostRun_eq_next (h : hostRun s = .next t) : s.run = .idle ∧ t = s.setRun .running := by
  by_cases hidle : s.run = .idle
  · rw [hostRun_of_idle hidle] at h
    cases h
    exact ⟨hidle, rfl⟩
  · rw [hostRun_of_ne_idle hidle] at h
    cases h

/-- Everything the host's `observe` can answer: the state itself (R245). -/
theorem hostObserve_eq_next (h : hostObserve s = .next t) : t = s := by
  by_cases hrunning : s.run = .running
  · rw [hostObserve_of_running hrunning] at h
    cases h
  · rw [hostObserve_of_ne_running hrunning] at h
    cases h
    rfl

/-! The invariant. -/

/-- A core constructed with 1 to 256 cells has the invariant (R6, R240). -/
theorem State.resetWith_inv {n : Nat} (h : 1 ≤ n ∧ n ≤ 256) : (State.resetWith n).Inv := by
  have hcells : (State.resetWith n).mem.wf := ⟨.nil, nofun⟩
  have hfault : (State.resetWith n).faultSound := ⟨iff_of_false nofun (· rfl), nofun⟩
  exact ⟨hcells, h, Nat.zero_le _, ⟨.inl rfl, .inl rfl, .inl rfl⟩, hfault⟩

/-- Storing an image that fits keeps the invariant: the memory stays canonical and has as many cells (R67). -/
theorem State.Inv.storeBytes {bytes : List Byte} {base : Nat} (hs : s.Inv) (hfit : base + bytes.length ≤ s.mem.size) :
    (s.setMem (s.mem.storeBytes base bytes)).Inv := by
  obtain ⟨hmem, hn, hrest⟩ := hs
  exact ⟨Memory.wf_storeBytes _ _ _ hmem hfit, (Memory.size_storeBytes _ _ _).symm ▸ hn, hrest⟩

/-- Starting an idle core keeps the invariant: there is no record in Idle and none in Running. -/
theorem State.Inv.setRun_running (hs : s.Inv) (hidle : s.run = .idle) : (s.setRun .running).Inv := by
  obtain ⟨hmem, hn, hpc, hflags, hiff, hrecord⟩ := hs
  rw [hidle] at hiff
  exact ⟨hmem, hn, hpc, hflags, (iff_of_false nofun nofun).trans hiff, hrecord⟩

/-- Settles O57. -/
theorem resetHasInvariant : Obligations.ResetHasInvariant := State.resetWith_inv (by decide)

/-- Settles O58, by what each transaction can answer. -/
theorem hostKeepsInvariant : Obligations.HostKeepsInvariant := by
  intro s t hs
  refine ⟨fun h => ?_, fun bytes base h => ?_, fun h => ?_, fun h => hostObserve_eq_next h ▸ hs⟩
  · obtain ⟨-, hn, -⟩ := hs
    cases h
    exact State.resetWith_inv hn
  · obtain ⟨-, hfit, rfl⟩ := hostLoad_eq_next h
    exact hs.storeBytes hfit
  · obtain ⟨hidle, rfl⟩ := hostRun_eq_next h
    exact hs.setRun_running hidle

/-! Reset and boot. -/

/-- Settles O8. -/
theorem hostResetConstructsAnew : Obligations.HostResetConstructsAnew := fun _ =>
  ⟨_, rfl, rfl, fun _ => State.resetWith_read, State.resetWith_reg _, rfl, rfl, rfl, rfl, rfl, congrArg State.resetWith⟩

/-- Settles O53: the loaded bytes from 0 on begin with the instruction's encoding, and an unloaded cell 0 holds the illegal
opcode 0x00. -/
theorem bootRunsFirstInstruction : Obligations.BootRunsFirstInstruction := by
  refine ⟨fun i rest hfit => ?_, _, hostRun_of_idle rfl, ?_⟩
  · have hload := (Nat.zero_add _).trans_le hfit
    refine ⟨_, _, hostLoad_of_fit rfl hload, hostRun_of_idle rfl, rfl, ?_⟩
    refine stepRunsEncodedBytes _ i rfl fun k b hb => ?_
    obtain ⟨hk, -⟩ := List.getElem?_eq_some_iff.mp hb
    exact Memory.read_storeBytes_inside hload ((List.getElem?_append_left hk).trans hb)
  · obtain ⟨-, -, hillegal⟩ := illegalOpcodesFault
    exact hillegal _ 0x00 rfl (State.resetWith_read (by decide)) (by decide)

/-! Compare and jump, and the end of a run. -/

/-- Settles O49, from what CMP, JEQ and JNE leave: EQ is set exactly when the two values are equal, and CMP changes no register. -/
theorem compareThenJump : Obligations.CompareThenJump := by
  intro s a b c
  obtain ⟨-, t, ht, heq, -, -, -, htpc, htregs, -⟩ := cmpResult s a b
  obtain ⟨-, u, hu, hupc, -⟩ := jeqResult t c
  obtain ⟨-, w, hw, hwpc, -⟩ := jneResult t c
  have hreg : t.reg c = s.reg c := htregs c List.not_mem_nil
  rw [BitVec.toNat_inj] at heq
  refine ⟨t, u, w, ht, hu, hw, ?_, ?_⟩
  · simp only [hupc, heq, hreg, htpc]
  · simp only [hwpc, ← Bool.not_eq_true, heq, ite_not, hreg, htpc]

/-- A run of any number of steps stays where a step answers the state it began in. -/
theorem run_of_step_self {M : Host.Core} {s : M.State} (h : M.step s = .next s) (k : Nat) : M.run k s = .next s := by
  induction k with
  | zero => rfl
  | succ k ih => rw [Host.Core.run, h]; exact ih

/-- Settles O43: no step is performed after the end, so every step answers the state the run ended in. -/
theorem endedRunKeepsItsState : Obligations.EndedRunKeepsItsState := by
  intro s t k hs h
  obtain ⟨-, hrunning⟩ := hs.run_ne
  have hstep : step s = .next s := noStepOutsideRunning s hrunning
  cases (run_of_step_self (M := Sys2Proof.core) hstep k).symm.trans h
  rfl

end Sys2Proof.Machine
end
